-- ==== Sys2Proof/Word.lean ====
section
/-! DEFINITION. The word types of the block (00_scope.md R6, R10): 8-bit lanes and memory bytes, 16-bit words
and addresses, 24-bit command words. Everything is unsigned. -/

namespace Sys2Proof

/-- `u8`: a lane, a memory byte, an opcode (R6 `LANE_WIDTH`, `DATA_WIDTH`, `OPCODE_WIDTH`). -/
abbrev Byte := BitVec 8

/-- `u16`: a pair's composition, PC, SP, an address (R6 `WORD_WIDTH`, `ADDR_WIDTH`). -/
abbrev Word := BitVec 16

/-- The 24-bit command word (30_encoding.md R73). -/
abbrev CommandWord := BitVec 24

end Sys2Proof
end

