-- ==== Sys2Proof/Machine/Params.lean ====
section
/-! DEFINITION. The type parameters of 00_scope.md R8: MemErr, META and TEXT. Each is an uninterpreted type, named by
codes of which nothing can be proved, beside the plain data that a test can write down (entry 13). -/

namespace Sys2Proof.Config

/-- The codes of the environment's payloads (MemErr): a parameter. -/
opaque memErrCodes : Nat → Bool

/-- The codes of the environment's operand metadata (META): a parameter. -/
opaque metaCodes : Nat → Bool

/-- The codes of the environment's display texts (TEXT): a parameter. -/
opaque textCodes : Nat → Bool

end Sys2Proof.Config

namespace Sys2Proof.Machine

open Sys2Proof

/-- A type parameter: the values whose codes are the known ones. -/
structure Coded (known : Nat → Bool) where
  code : Nat
  legal : known code = true
deriving DecidableEq, Repr

/-- MemErr, the payload of an InvalidMemoryAccess: the collaborator's, passed on unchanged and never read by the block
(60_exceptions.md R183). -/
inductive MemErr where
  | number (n : Nat)
  | other (x : Coded Config.memErrCodes)
deriving DecidableEq, Repr, Inhabited

/-- META, a descriptor's operand metadata: passed to the behaviour and never read by the block. -/
inductive Meta where
  | numbers (l : List Nat)
  | other (x : Coded Config.metaCodes)
deriving DecidableEq, Repr, Inhabited

/-- TEXT, a descriptor's display text: never read by the block. -/
inductive Text where
  | string (s : String)
  | other (x : Coded Config.textCodes)
deriving DecidableEq, Repr, Inhabited

end Sys2Proof.Machine
end

