-- ==== Sys2Proof/Syntax.lean ====
section
/-! DEFINITION. Register identifiers and the typed instructions: the 14 commands of 30_encoding.md R74 and the
opcode byte that STEP fetches (R82), one constructor for each row of spec/opcode_table.json. -/

namespace Sys2Proof

/-- The four register pairs, index p = 0..3 (10_state.md R21). -/
inductive PairId where
  | bc | de | hl | af
deriving DecidableEq, Repr, Inhabited

/-- The two lanes of a pair (10_state.md R20). -/
inductive Lane where
  | high | low
deriving DecidableEq, Repr, Inhabited

/-- SmallWidthRegister: the 8 lane identifiers (10_state.md R23). -/
inductive R8Id where
  | b | c | d | e | h | l | a | f
deriving DecidableEq, Repr, Inhabited

/-- WideRegister: the 6 identifiers of 16-bit registers (10_state.md R24). -/
inductive R16Id where
  | bc | de | hl | af | sp | pc
deriving DecidableEq, Repr, Inhabited

/-- The two clock counters: machine cycles and clock ticks (10_state.md R34). -/
inductive ClockSel where
  | m | t
deriving DecidableEq, Repr, Inhabited

/-- The instructions: one constructor for each row of spec/opcode_table.json. -/
inductive Instr where
  /-- RD8 (42 R121). -/
  | rd8 (id : R8Id)
  /-- WR8 (42 R122). -/
  | wr8 (id : R8Id) (v : Byte)
  /-- RD16 (42 R123). -/
  | rd16 (id : R16Id)
  /-- WR16 (42 R125). -/
  | wr16 (id : R16Id) (v : Word)
  /-- RDPC (42 R126). -/
  | rdpc
  /-- RDSP (42 R127). -/
  | rdsp
  /-- INCPC (42 R128). -/
  | incpc (amount : Word)
  /-- GETC (41 R110). -/
  | getc
  /-- SETC (41 R111). -/
  | setc (state : Bool)
  /-- RDIME (42 R130). -/
  | rdime
  /-- WRIME (42 R131). -/
  | wrime (state : Bool)
  /-- CLKRD (43 R140). -/
  | clkrd (sel : ClockSel)
  /-- CLKADD (43 R141). -/
  | clkadd (sel : ClockSel) (amount : Word)
  /-- STEP (44 R150). -/
  | step
  /-- The opcode byte STEP fetched (30 R82; 44 R152): not a command, the second half of a STEP. -/
  | opcode (byte : Byte)
deriving DecidableEq, Repr, Inhabited

/-- The four fields of a command word (30_encoding.md R73). -/
structure Fields where
  /-- Bits 23..20: the command code. -/
  op : BitVec 4
  /-- Bits 19..17: register identifier or clock counter. -/
  sel : BitVec 3
  /-- Bit 16: boolean operand. -/
  b : BitVec 1
  /-- Bits 15..0: data operand. -/
  imm : BitVec 16
deriving DecidableEq, Repr, Inhabited

/-- What an instruction is read from: a command word the host or a behaviour issues, or the opcode byte in
memory (30_encoding.md, the two encodings). -/
inductive InstrBits where
  | command (word : CommandWord)
  | opcodeByte (byte : Byte)
deriving DecidableEq, Repr, Inhabited

end Sys2Proof
end

