-- ==== Sys2Proof/Machine/Types.lean ====
section
/-! DEFINITION. The data the machine is made of, all plain: the block's state (10_state.md R37), the memory
collaborator's state (20_memory.md), descriptors and behaviours (10 R35, R36; 44 R154), responses (30 R80) and what
the host may do (44 R166). -/

namespace Sys2Proof.Machine

open Sys2Proof

/-! ## The block's state -/

/-- A pair is two 8-bit lanes and nothing else (10_state.md R20). -/
structure RegPair where
  high : Byte
  low : Byte
deriving DecidableEq, Repr, Inhabited

/-- The clock accumulator's two counters, natural numbers (10_state.md R34). -/
structure Clock where
  m : Nat
  t : Nat
deriving DecidableEq, Repr, Inhabited

/-- The block's state, exactly (10_state.md R37). -/
structure CoreState where
  bc : RegPair
  de : RegPair
  hl : RegPair
  af : RegPair
  pc : Word
  sp : Word
  ime : Bool
  clk : Clock
deriving DecidableEq, Repr, Inhabited

/-! ## The memory collaborator -/

/-- What the collaborator does at an address (20_memory.md R53, R54). Outside MMIO_SET the laws of R54 leave an address
a content, which is a byte or the payload its reads fail with until a write succeeds (`Mem.content`), and leave open
when a write fails: that is `guarded`, of which the first three kinds are plain cases. -/
inductive RegionKind where
  /-- Reads give the content; writes succeed. -/
  | ordinary
  /-- Reads give the content; writes fail with the payload. -/
  | readOnly (onWrite : MemErr)
  /-- Reads and writes fail with the payloads. -/
  | faulting (onRead onWrite : MemErr)
  /-- Reads give the content; whether a write succeeds depends on the memory, the address and the value. -/
  | guarded
  /-- In MMIO_SET: no law of R54 holds. -/
  | mmio
deriving DecidableEq, Repr, Inhabited

/-- A range of addresses of one kind. -/
structure Region where
  base : Nat
  size : Nat
  kind : RegionKind
deriving DecidableEq, Repr, Inhabited

/-- The memory collaborator's state (20_memory.md R50). -/
structure Mem where
  /-- The bytes, in canonical form (see `Mem.wf`). -/
  cells : List Host.Cell
  /-- The addresses whose reads fail until a write there succeeds, with the payloads, in canonical form too. -/
  unreadable : List (Nat × MemErr)
  /-- Fault predicate and MMIO_SET (00_scope.md R8); the first region that holds an address decides, and an
  address in none is ordinary. -/
  map : List Region
  /-- The hidden state behind the memory-mapped addresses. -/
  device : Nat
deriving DecidableEq, Repr, Inhabited

/-- A change of the memory as a whole: bytes to set, in order, then addresses to make unreadable, in order, and the
new hidden state. Every memory with the same map is reached by one, so it can stand for any result memory. -/
structure MemEffect where
  pokes : List (Word × Byte)
  unreadable : List (Word × MemErr)
  device : Nat
deriving DecidableEq, Repr, Inhabited

/-! ## Behaviours and the instruction table -/

/-- What a script computes between its commands: natural numbers over the values it has received so far. -/
inductive Expr where
  | lit (n : Nat)
  /-- The i-th newest value received (0 if there is none). -/
  | slot (i : Nat)
  /-- The i-th number of the operand metadata (0 if there is none). -/
  | operand (i : Nat)
  | add (x y : Expr)
  /-- Subtraction on natural numbers, 0 where the result would be negative. -/
  | sub (x y : Expr)
  | mul (x y : Expr)
  /-- Division, 0 for a zero divisor. -/
  | div (x y : Expr)
  /-- Remainder, `x` for a zero divisor. -/
  | mod (x y : Expr)
  | and (x y : Expr)
  | or (x y : Expr)
  | xor (x y : Expr)
  /-- 1 or 0. -/
  | eq (x y : Expr)
  /-- 1 or 0. -/
  | lt (x y : Expr)
deriving DecidableEq, Repr, Inhabited

/-- A behaviour written as the commands and memory accesses it issues, in its own order (44_dispatcher.md R154). -/
inductive Script where
  /-- The end: the cost the behaviour returns. -/
  | finish (dm dt : Expr)
  /-- Issue a command word (its low 24 bits); the response's status code and then its value are received. -/
  | command (word : Expr) (next : Script)
  /-- `read_u8` at an address (its low 16 bits); the byte is received. -/
  | read (addr : Expr) (next : Script)
  /-- `write_u8` at an address (low 16 bits) of a byte (low 8 bits). -/
  | write (addr value : Expr) (next : Script)
  /-- Go on with the first script if the condition is not 0, else with the second. -/
  | branch (cond : Expr) (onTrue onFalse : Script)
deriving DecidableEq, Repr, Inhabited

/-- An execute behaviour (44_dispatcher.md R154): written out as a script, or any deterministic total function of
register file, memory and metadata, named by a number and left uninterpreted (`Config.behave`). -/
inductive Behaviour where
  | script (body : Script)
  | external (id : Nat)
deriving DecidableEq, Repr, Inhabited

/-- Placeholder or implemented (10_state.md R36). -/
inductive Kind where
  | placeholder
  | implemented (behave : Behaviour)
deriving DecidableEq, Repr, Inhabited

/-- A descriptor (10_state.md R36). `text` and `operands` are the spec's TEXT and META. -/
structure Descriptor where
  text : Text
  operands : Meta
  kind : Kind
deriving DecidableEq, Repr, Inhabited

/-- The instruction table T, 256 descriptors (10_state.md R35): given by the host as data, or the one the
environment supplied to new(), which the spec leaves open (`Config.suppliedTable`). -/
inductive Table where
  | supplied
  | given (entries : Vector Descriptor 256)
deriving DecidableEq, Repr, Inhabited

/-- What an external behaviour returns when it succeeds: the new register-file state, its change of the memory and
its cost (44_dispatcher.md R154). -/
structure ExternalResult where
  core : CoreState
  memory : MemEffect
  dm : Nat
  dt : Nat
deriving DecidableEq, Repr, Inhabited

/-! ## Responses and the host -/

/-- The value of a successful command (30_encoding.md R80). -/
inductive Value where
  | none
  | byte (x : Byte)
  | word (x : Word)
  | flag (x : Bool)
  | count (x : Nat)
  | cost (dm dt : Nat)
deriving DecidableEq, Repr, Inhabited

/-- The response every command returns (30_encoding.md R80). -/
inductive Response where
  | ok (v : Value)
  | unimplementedOpcode (opcode : Byte) (pc : Word)
  | invalidMemoryAccess (e : MemErr)
  | illegalCommand (word : CommandWord)
  | contractViolation (opcode : Byte) (pc : Word)
  | clockOverflow
deriving DecidableEq, Repr, Inhabited

/-- What the host does to the block, one action at a time (44_dispatcher.md R166; 30_encoding.md R84). -/
inductive HostInput where
  /-- Issue a command word. -/
  | command (word : CommandWord)
  /-- Set memory up between steps (ROM loading, a device, a bus master). -/
  | memory (effect : MemEffect)
  /-- Construct a new processor with a table, the only reset (R161; 70 R200). -/
  | construct (table : List Descriptor)
deriving DecidableEq, Repr, Inhabited

end Sys2Proof.Machine
end

