-- ==== Sys2Proof/Config.lean ====
section
/-! DEFINITION. What is fixed for the machine: the constants the spec decides (00_scope.md R7), and the parameters
it leaves open (R8), which have no body here: nothing can be proved of their values. -/

namespace Sys2Proof.Config

open Sys2Proof Sys2Proof.Machine

/-- CARRY_BIT (00_scope.md R7; decision D4). -/
def carryBit : Nat := 4

/-- FLAG_LANE (00_scope.md R7; decision D3). -/
def flagLane : R8Id := .f

/-- What an unlisted memory address reads as. DESIGN CHOICE (entry 10, unsafe): the spec leaves the initial contents
of memory to the collaborator (00_scope.md R8). -/
def unwrittenByte : Byte := 0

/-- INSTR_TABLE as the environment supplies it to new() (00_scope.md R8; entry 4): free values. -/
opaque suppliedTable : Byte → Descriptor

/-- The external behaviours, each a deterministic total function of the register file, the memory and the metadata
(44_dispatcher.md R154; entry 5): free values. -/
opaque behave : Nat → CoreState → Mem → Meta → Except MemErr ExternalResult

/-- The numbers a script finds in metadata of the environment's own type (entry 6): free values. -/
opaque metaNumbers : Coded metaCodes → List Nat

/-- Whether, and with which payload, `write_u8` fails at a guarded address (20_memory.md R52, R53; entry 8): free
values. -/
opaque writeFault : Mem → Word → Byte → Option MemErr

/-- `read_u8` at an address in MMIO_SET (20_memory.md R51, R54; entry 11): free values. -/
opaque mmioRead : Mem → Word → Except MemErr (Byte × MemEffect)

/-- `write_u8` at an address in MMIO_SET (20_memory.md R52, R54; entry 11): free values. -/
opaque mmioWrite : Mem → Word → Byte → Except MemErr MemEffect

end Sys2Proof.Config
end

