-- ==== Sys2Proof/Machine/State.lean ====
section
/-! DEFINITION. The state of the machine as plain data, its reset value, and the reasons a step can stop.
The system the spec steps is (CoreState, Mem) with a table T (10_state.md R37); beside it stand the host's pending
actions and the run's list of responses (44_dispatcher.md R166, R167). -/

namespace Sys2Proof.Machine

open Sys2Proof

/-- Why the machine stops. -/
inductive Fault where
  /-- Raised by a host input that constructs a processor with a table of `n` ≠ 256 descriptors: construction fails
  and no processor exists, so no command can follow (44_dispatcher.md R161; 60_exceptions.md R187). Safe. -/
  | constructionError (n : Nat)
deriving DecidableEq, Repr, Inhabited

/-- Why an instruction has no meaning. -/
inductive Refusal where
  /-- Raised by no instruction of this model: every arm of exec has its meaning. Safe. -/
  | notModelled (mnemonic : String)
deriving DecidableEq, Repr, Inhabited

/-- The machine's state. -/
structure State where
  /-- The block's state (10_state.md R37). -/
  core : CoreState
  /-- The memory collaborator's state (20_memory.md R50). -/
  mem : Mem
  /-- The instruction table T, fixed for the life of the processor (10_state.md R35). -/
  table : Table
  /-- CLOCK_WIDTH: none is unbounded (00_scope.md R7, R8). -/
  clockWidth : Option Nat
  /-- The host's pending actions, oldest first: the model's own field (entry 1). -/
  inputs : List HostInput
  /-- The run's responses, oldest first (44_dispatcher.md R167): the model's own field (entry 2). -/
  responses : List Response
deriving DecidableEq, Repr, Inhabited

/-- The block right after construction (10_state.md R40). -/
def CoreState.reset : CoreState :=
  { bc := ⟨0, 0⟩, de := ⟨0, 0⟩, hl := ⟨0, 0⟩, af := ⟨0, 0⟩, pc := 0, sp := 0, ime := false, clk := ⟨0, 0⟩ }

/-- The machine right after construction with the table the environment supplies (70_reset_and_hazards.md R200): no
byte of memory listed and none unreadable, an empty memory map (entry 9), the clock unbounded (00_scope.md R7), no input pending. -/
def State.reset : State :=
  { core := CoreState.reset
    mem := { cells := [], unreadable := [], map := [], device := 0 }
    table := .supplied
    clockWidth := none
    inputs := []
    responses := [] }

end Sys2Proof.Machine
end

