-- ==== Sys2Proof/Machine/Ops.lean ====
section
/-! DEFINITION. The named operations over memory, the table and the response list. Memory accesses follow
20_memory.md R51 to R54; `State.raise` is the one way a failure is taken (60_exceptions.md R181, R190): nothing
changes but the response list, and there is no return from it (R191). -/

namespace Sys2Proof.Machine

open Sys2Proof

/-! ## Entries by address, in canonical form -/

/-- What is listed at an address. -/
def entryGet? {α : Type} : List (Nat × α) → Nat → Option α
  | [], _ => none
  | (b, x) :: rest, a => if a = b then some x else entryGet? rest a

/-- Forget what is listed at an address. -/
def entryErase {α : Type} : List (Nat × α) → Nat → List (Nat × α)
  | [], _ => []
  | (b, x) :: rest, a => if a = b then entryErase rest a else (b, x) :: entryErase rest a

/-- List an entry at an address, in order, in place of what was listed there. -/
def entryInsert {α : Type} : List (Nat × α) → Nat → α → List (Nat × α)
  | [], a, x => [(a, x)]
  | (b, y) :: rest, a, x =>
    if a < b then (a, x) :: (b, y) :: rest
    else if a = b then (a, x) :: rest
    else (b, y) :: entryInsert rest a x

/-- The entries are listed from address `low` up, strictly rising, below 65536 (20_memory.md R53). -/
def risingFrom {α : Type} : Nat → List (Nat × α) → Bool
  | _, [] => true
  | low, (a, _) :: rest => decide (low ≤ a) && decide (a < 65536) && risingFrom (a + 1) rest

/-! ## The bytes of memory -/

/-- The byte at an address: what is listed, else what an unlisted address reads as. -/
def cellGet (cells : List Host.Cell) (a : Nat) : Byte := (entryGet? cells a).getD Config.unwrittenByte

/-- Set the byte at an address: no entry is kept that equals what an unlisted address reads as. -/
def cellSet (cells : List Host.Cell) (a : Nat) (v : Byte) : List Host.Cell :=
  if v = Config.unwrittenByte then entryErase cells a else entryInsert cells a v

/-- The memory is in canonical form: both lists rise, no byte is listed that an unlisted address reads as, and none
at an unreadable address. -/
def Mem.wf (mem : Mem) : Bool :=
  risingFrom 0 mem.cells && mem.cells.all (fun x => decide (x.2 ≠ Config.unwrittenByte)) &&
    risingFrom 0 mem.unreadable && mem.unreadable.all (fun x => (entryGet? mem.cells x.1).isNone)

/-! ## Memory accesses -/

/-- The region holds the address. -/
def Region.holds (r : Region) (a : Word) : Bool :=
  decide (r.base ≤ a.toNat) && decide (a.toNat < r.base + r.size)

/-- The kind of an address under a map: that of the first region that holds it, else ordinary. -/
def kindIn : List Region → Word → RegionKind
  | [], _ => .ordinary
  | r :: rest, a => if r.holds a then r.kind else kindIn rest a

/-- The kind of an address in a memory. -/
def Mem.kindAt (mem : Mem) (a : Word) : RegionKind := kindIn mem.map a

/-- The address is in MMIO_SET (20_memory.md R54). -/
def Mem.isMmio (mem : Mem) (a : Word) : Bool := mem.kindAt a == .mmio

/-- The byte stored at an address. -/
def Mem.peek (mem : Mem) (a : Word) : Byte := cellGet mem.cells a.toNat

/-- What a read at an address outside MMIO_SET finds: its byte, or the payload it fails with. -/
def Mem.content (mem : Mem) (a : Word) : Except MemErr Byte :=
  match entryGet? mem.unreadable a.toNat with
  | some e => .error e
  | none => .ok (mem.peek a)

/-- The memory with one byte set, which is readable from then on. -/
def Mem.poke (mem : Mem) (a : Word) (v : Byte) : Mem :=
  { mem with cells := cellSet mem.cells a.toNat v, unreadable := entryErase mem.unreadable a.toNat }

/-- The memory with one address whose reads fail. -/
def Mem.block (mem : Mem) (a : Word) (e : MemErr) : Mem :=
  { mem with cells := entryErase mem.cells a.toNat, unreadable := entryInsert mem.unreadable a.toNat e }

/-- Set bytes in order. -/
def Mem.pokes : Mem → List (Word × Byte) → Mem
  | mem, [] => mem
  | mem, (a, v) :: rest => (mem.poke a v).pokes rest

/-- Make addresses unreadable, in order. -/
def Mem.blocks : Mem → List (Word × MemErr) → Mem
  | mem, [] => mem
  | mem, (a, e) :: rest => (mem.block a e).blocks rest

/-- The memory after a change of it as a whole. -/
def Mem.applyEffect (mem : Mem) (e : MemEffect) : Mem :=
  { (mem.pokes e.pokes).blocks e.unreadable with device := e.device }

/-- A read outside MMIO_SET: the content, and the memory unchanged (R54). -/
def plainRead (mem : Mem) (a : Word) : Except MemErr (Byte × Mem) := (mem.content a).map fun v => (v, mem)

/-- `read_u8` (20_memory.md R51): a byte and the memory after the read, or the collaborator's error. The address is
passed unchanged (R58) and needs no alignment (R60). -/
def memRead (mem : Mem) (a : Word) : Except MemErr (Byte × Mem) :=
  match mem.kindAt a with
  | .ordinary => plainRead mem a
  | .readOnly _ => plainRead mem a
  | .guarded => plainRead mem a
  | .faulting onRead _ => .error onRead
  | .mmio =>
    match Config.mmioRead mem a with
    | .ok (v, effect) => .ok (v, mem.applyEffect effect)
    | .error e => .error e

/-- `write_u8` (20_memory.md R52): the memory after the write, or the collaborator's error. -/
def memWrite (mem : Mem) (a : Word) (v : Byte) : Except MemErr Mem :=
  match mem.kindAt a with
  | .ordinary => .ok (mem.poke a v)
  | .readOnly onWrite => .error onWrite
  | .faulting _ onWrite => .error onWrite
  | .guarded =>
    match Config.writeFault mem a v with
    | none => .ok (mem.poke a v)
    | some e => .error e
  | .mmio =>
    match Config.mmioWrite mem a v with
    | .ok effect => .ok (mem.applyEffect effect)
    | .error e => .error e

/-! ## The table -/

/-- `T[opc]`, a direct index over all 256 byte values (44_dispatcher.md R152, R163). -/
def Table.descriptor : Table → Byte → Descriptor
  | .supplied, opc => Config.suppliedTable opc
  | .given entries, opc => entries[opc.toNat]'(opc.isLt)

/-! ## Responses -/

/-- The 3-bit status code of a response (30_encoding.md R81). -/
def Response.status : Response → BitVec 3
  | .ok _ => 0
  | .unimplementedOpcode _ _ => 1
  | .invalidMemoryAccess _ => 2
  | .illegalCommand _ => 3
  | .contractViolation _ _ => 4
  | .clockOverflow => 5

/-- The response is a failure (60_exceptions.md R180). -/
def Response.isFailure (r : Response) : Bool := r.status != 0

/-- Record a command's response at the end of the run's list (44_dispatcher.md R167). -/
def State.respond (s : State) (r : Response) : State := { s with responses := s.responses ++ [r] }

/-- End a command or a step with a failure: from the state before it began, nothing changes but the response list
(60_exceptions.md R181, R190). -/
def State.raise (before : State) (failure : Response) : State := before.respond failure

/-- What an accessor command does to the block: the block's state after it, and its response. -/
structure CoreReply where
  core : CoreState
  response : Response
deriving DecidableEq, Repr, Inhabited

/-- A read command: the state is unchanged and the value is returned (42 R132). -/
def CoreState.answer (c : CoreState) (v : Value) : CoreReply := ⟨c, .ok v⟩

/-- A write command that succeeds returns no value. -/
def CoreState.done (c : CoreState) : CoreReply := ⟨c, .ok .none⟩

/-- Complete an accessor command the host issued: its effect on the block and its response. -/
def State.finish (s : State) (r : CoreReply) : State := State.respond { s with core := r.core } r.response

end Sys2Proof.Machine
end

