-- ==== Sys2Proof/Machine/Operands.lean ====
section
/-! DEFINITION. The operand forms: the storage each identifier names (10_state.md R25, R26), the composition and
decomposition of a pair (40_register_pair.md), and the clock counters (10_state.md R34). Every match is exhaustive
over the identifiers (42_register_file_accessors.md R120). -/

namespace Sys2Proof.Machine

open Sys2Proof

/-! ## Pairs -/

/-- `as_u16` (40 R100): the high lane is the most-significant byte. -/
def RegPair.asU16 (p : RegPair) : Word := p.high ++ p.low

/-- `write_u16` (40 R101): both lanes, together. -/
def RegPair.ofU16 (v : Word) : RegPair := { high := v.extractLsb' 8 8, low := v.extractLsb' 0 8 }

/-- `pairs[p]` (10_state.md R21). -/
def CoreState.pair (c : CoreState) : PairId → RegPair
  | .bc => c.bc
  | .de => c.de
  | .hl => c.hl
  | .af => c.af

/-- Replace `pairs[p]`. -/
def CoreState.setPair (c : CoreState) (p : PairId) (v : RegPair) : CoreState :=
  match p with
  | .bc => { c with bc := v }
  | .de => { c with de := v }
  | .hl => { c with hl := v }
  | .af => { c with af := v }

/-- One lane of a pair. -/
def RegPair.lane (p : RegPair) : Lane → Byte
  | .high => p.high
  | .low => p.low

/-- Write one lane of a pair; the other keeps its value. -/
def RegPair.setLane (p : RegPair) (l : Lane) (v : Byte) : RegPair :=
  match l with
  | .high => { p with high := v }
  | .low => { p with low := v }

/-! ## 8-bit identifiers -/

/-- The pair and lane an 8-bit identifier names (10_state.md R25). -/
def placeOf : R8Id → PairId × Lane
  | .b => (.bc, .high)
  | .c => (.bc, .low)
  | .d => (.de, .high)
  | .e => (.de, .low)
  | .h => (.hl, .high)
  | .l => (.hl, .low)
  | .a => (.af, .high)
  | .f => (.af, .low)

/-- `r8[id]` (00_scope.md R11). -/
def CoreState.readR8 (c : CoreState) (id : R8Id) : Byte := (c.pair (placeOf id).1).lane (placeOf id).2

/-- `r8[id] <- v`: that lane only (42 R122). -/
def CoreState.writeR8 (c : CoreState) (id : R8Id) (v : Byte) : CoreState :=
  c.setPair (placeOf id).1 ((c.pair (placeOf id).1).setLane (placeOf id).2 v)

/-! ## 16-bit identifiers -/

/-- `r16[id]` (10_state.md R26; 42 R123). -/
def CoreState.readR16 (c : CoreState) : R16Id → Word
  | .pc => c.pc
  | .sp => c.sp
  | .bc => (c.pair .bc).asU16
  | .de => (c.pair .de).asU16
  | .hl => (c.pair .hl).asU16
  | .af => (c.pair .af).asU16

/-- `r16[id] <- v` (42 R125). -/
def CoreState.writeR16 (c : CoreState) (id : R16Id) (v : Word) : CoreState :=
  match id with
  | .pc => { c with pc := v }
  | .sp => { c with sp := v }
  | .bc => c.setPair .bc (RegPair.ofU16 v)
  | .de => c.setPair .de (RegPair.ofU16 v)
  | .hl => c.setPair .hl (RegPair.ofU16 v)
  | .af => c.setPair .af (RegPair.ofU16 v)

/-! ## Clock counters -/

/-- The selected counter (43 R140). -/
def Clock.get (k : Clock) : ClockSel → Nat
  | .m => k.m
  | .t => k.t

/-- Add to the selected counter, exactly, and leave the other (43 R141). -/
def Clock.add (k : Clock) (sel : ClockSel) (amount : Nat) : Clock :=
  match sel with
  | .m => { k with m := k.m + amount }
  | .t => { k with t := k.t + amount }

/-- A counter value does not pass the maximum of CLOCK_WIDTH (43 R142); every value fits an unbounded counter. -/
def fitsWidth (width : Option Nat) (n : Nat) : Bool :=
  match width with
  | none => true
  | some k => decide (n ≤ 2 ^ k - 1)

/-- Both counters fit. -/
def Clock.fits (k : Clock) (width : Option Nat) : Bool := fitsWidth width k.m && fitsWidth width k.t

end Sys2Proof.Machine
end

