-- ==== Sys2Proof/Machine/Clock.lean ====
section
/-! DEFINITION. The clock accumulator's commands (43_clock.md). -/

namespace Sys2Proof.Machine

open Sys2Proof

/-- CLKRD (R140): the full counter. -/
def coreClkrd (sel : ClockSel) (c : CoreState) : CoreReply := c.answer (.count (c.clk.get sel))

/-- CLKADD (R141): an exact addition, or ClockOverflow with no change where a finite CLOCK_WIDTH would be passed
(R142). -/
def coreClkadd (width : Option Nat) (sel : ClockSel) (amount : Word) (c : CoreState) : CoreReply :=
  if fitsWidth width (c.clk.get sel + amount.toNat) then
    CoreState.done { c with clk := c.clk.add sel amount.toNat }
  else ⟨c, .clockOverflow⟩

/-- The meaning of CLKRD. -/
def execClkrd (sel : ClockSel) (s : State) : Host.Outcome State Fault Refusal :=
  .next (s.finish (coreClkrd sel s.core))

/-- The meaning of CLKADD. -/
def execClkadd (sel : ClockSel) (amount : Word) (s : State) : Host.Outcome State Fault Refusal :=
  .next (s.finish (coreClkadd s.clockWidth sel amount s.core))

end Sys2Proof.Machine
end

