-- ==== Sys2Proof/WellFormed.lean ====
section
/-! DEFINITION. Which command words are legal (30_encoding.md R74, R76, R77), as checks on the four fields. The
table `commandRows` is the table of R74: for each code, which fields are operands; a field it gives as 0 must be 0.
The typed `Instr` has no ill-formed term: its identifier types hold no code 6 or 7 (93 I15). -/

namespace Sys2Proof

/-- What the `sel` field holds in a command (R74): 0, an `id8`, an `id16`, or a counter select `[0, 0, c]`. -/
inductive SelUse where
  | zero | id8 | id16 | counter
deriving DecidableEq, Repr

/-- What the `imm` field holds in a command (R74): 0, a byte in `imm[7:0]`, or 16 bits. -/
inductive ImmUse where
  | zero | byte | word
deriving DecidableEq, Repr

/-- One row of the table of 30_encoding.md R74. -/
structure CommandRow where
  mnemonic : String
  sel : SelUse
  bIsOperand : Bool
  imm : ImmUse
deriving DecidableEq, Repr

/-- The table of R74, in the order of the command codes 0x0 to 0xD. -/
def commandRows : List CommandRow :=
  [ ⟨"RD8", .id8, false, .zero⟩,
    ⟨"WR8", .id8, false, .byte⟩,
    ⟨"RD16", .id16, false, .zero⟩,
    ⟨"WR16", .id16, false, .word⟩,
    ⟨"RDPC", .zero, false, .zero⟩,
    ⟨"RDSP", .zero, false, .zero⟩,
    ⟨"INCPC", .zero, false, .word⟩,
    ⟨"GETC", .zero, false, .zero⟩,
    ⟨"SETC", .zero, true, .zero⟩,
    ⟨"RDIME", .zero, false, .zero⟩,
    ⟨"WRIME", .zero, true, .zero⟩,
    ⟨"CLKRD", .counter, false, .zero⟩,
    ⟨"CLKADD", .counter, false, .word⟩,
    ⟨"STEP", .zero, false, .zero⟩ ]

/-- Must-be-zero bits of `sel` (R76): all of it where it is no operand, `sel[2:1]` for a counter select. -/
def SelUse.zeroOk : SelUse → BitVec 3 → Bool
  | .zero, sel => sel == 0
  | .id8, _ => true
  | .id16, _ => true
  | .counter, sel => sel.extractLsb' 1 2 == 0

/-- Must-be-zero bits of `imm` (R76): all of it where it is no operand, `imm[15:8]` for a byte. -/
def ImmUse.zeroOk : ImmUse → BitVec 16 → Bool
  | .zero, imm => imm == 0
  | .byte, imm => imm.extractLsb' 8 8 == 0
  | .word, _ => true

/-- Every must-be-zero field of the row is 0 (R76). -/
def CommandRow.zeroOk (r : CommandRow) (f : Fields) : Bool :=
  r.sel.zeroOk f.sel && (r.bIsOperand || f.b == 0) && r.imm.zeroOk f.imm

/-- The identifier of the row names a register: `id16` codes 6 and 7 do not (R72). -/
def CommandRow.idOk (r : CommandRow) (f : Fields) : Bool :=
  match r.sel with
  | .id16 => f.sel.toNat < 6
  | .zero | .id8 | .counter => true

/-- Why a command word is illegal: the three cases of R77, in its order. -/
inductive IllegalReason where
  | reservedOp
  | mustBeZero
  | noSuchIdentifier
deriving DecidableEq, Repr, Inhabited

/-- The check of R77 on the fields of a word: the first case that applies, or none for a legal word. -/
def Fields.illegal? (f : Fields) : Option IllegalReason :=
  match commandRows[f.op.toNat]? with
  | none => some .reservedOp
  | some r =>
    if !r.zeroOk f then some .mustBeZero
    else if !r.idOk f then some .noSuchIdentifier
    else none

/-- The word with these fields is a legal command (R77). -/
def Fields.legal (f : Fields) : Bool := f.illegal?.isNone

/-- The instruction is a command of R74, which the host may issue (30_encoding.md R85); the opcode byte is
fetched by STEP and never issued. -/
def Instr.isCommand : Instr → Bool
  | .opcode _ => false
  | _ => true

/-- The instruction is an accessor: a command other than STEP, which a behaviour may issue (30_encoding.md R85). -/
def Instr.isAccessor : Instr → Bool
  | .opcode _ => false
  | .step => false
  | _ => true

end Sys2Proof
end

