-- ==== Sys2Proof/Decode.lean ====
section
/-! DEFINITION. Decoding and encoding (30_encoding.md): the identifier codes (R70 to R72), the fields of a command
word (R73), operand assembly (R75), the illegal words by name (R77), and the opcode byte (R82). The decoder is total
(R79); the encoder is written from the same tables. -/

namespace Sys2Proof

/-! ## Identifier codes (R70 to R72) -/

/-- The `id8` code, 2·p + lane (R70, R71). -/
def R8Id.code : R8Id → BitVec 3
  | .b => 0 | .c => 1 | .d => 2 | .e => 3 | .h => 4 | .l => 5 | .a => 6 | .f => 7

/-- The lane an `id8` code names: all 8 codes are identifiers (R71). -/
def R8Id.ofCode (k : BitVec 3) : R8Id :=
  match k.toNat with
  | 0 => .b | 1 => .c | 2 => .d | 3 => .e | 4 => .h | 5 => .l | 6 => .a | _ => .f

/-- The `id16` code (R72). -/
def R16Id.code : R16Id → BitVec 3
  | .bc => 0 | .de => 1 | .hl => 2 | .af => 3 | .sp => 4 | .pc => 5

/-- The register an `id16` code names: codes 6 and 7 name none (R72). -/
def R16Id.ofCode? (k : BitVec 3) : Option R16Id :=
  match k.toNat with
  | 0 => some .bc | 1 => some .de | 2 => some .hl | 3 => some .af | 4 => some .sp | 5 => some .pc
  | _ => none

/-- The counter select in `sel`: `c = sel[0]`, 0 for machine cycles (R74, R75). -/
def ClockSel.code : ClockSel → BitVec 3
  | .m => 0 | .t => 1

/-- The counter `sel[0]` selects (R75). -/
def ClockSel.ofCode (k : BitVec 3) : ClockSel :=
  if k.getLsbD 0 then .t else .m

/-! ## The fields of a command word (R73) -/

/-- The fields of a word. -/
def fieldsOf (w : CommandWord) : Fields :=
  { op := w.extractLsb' 20 4, sel := w.extractLsb' 17 3, b := w.extractLsb' 16 1, imm := w.extractLsb' 0 16 }

/-- The word with given fields. -/
def wordOf (f : Fields) : CommandWord := f.op ++ f.sel ++ f.b ++ f.imm

/-! ## Decoding (R74, R75, R77, R79) -/

/-- The command a legal word's fields stand for; each operand is taken with no extension, scaling or shift (R75).
The arms that answer an error are those of R77 again, so the function needs no legality premise. -/
def assemble (f : Fields) : Except IllegalReason Instr :=
  match f.op.toNat with
  | 0x0 => .ok (.rd8 (R8Id.ofCode f.sel))
  | 0x1 => .ok (.wr8 (R8Id.ofCode f.sel) (f.imm.extractLsb' 0 8))
  | 0x2 =>
    match R16Id.ofCode? f.sel with
    | some id => .ok (.rd16 id)
    | none => .error .noSuchIdentifier
  | 0x3 =>
    match R16Id.ofCode? f.sel with
    | some id => .ok (.wr16 id f.imm)
    | none => .error .noSuchIdentifier
  | 0x4 => .ok .rdpc
  | 0x5 => .ok .rdsp
  | 0x6 => .ok (.incpc f.imm)
  | 0x7 => .ok .getc
  | 0x8 => .ok (.setc (f.b == 1))
  | 0x9 => .ok .rdime
  | 0xA => .ok (.wrime (f.b == 1))
  | 0xB => .ok (.clkrd (ClockSel.ofCode f.sel))
  | 0xC => .ok (.clkadd (ClockSel.ofCode f.sel) f.imm)
  | 0xD => .ok .step
  | _ => .error .reservedOp

/-- Decode a command word: exactly one of the 14 commands with its operands, or illegal with the reason (R77, R79). -/
def decodeCommand (w : CommandWord) : Except IllegalReason Instr :=
  match (fieldsOf w).illegal? with
  | some r => .error r
  | none => assemble (fieldsOf w)

/-- Decode any bits: a command word, or an opcode byte, of which all 256 are legal (R82). -/
def decode : InstrBits → Except IllegalReason Instr
  | .command w => decodeCommand w
  | .opcodeByte b => .ok (.opcode b)

/-! ## Encoding (R73 to R76) -/

/-- The bit of a boolean operand (R75). -/
def bitOf (state : Bool) : BitVec 1 := BitVec.ofBool state

/-- The bits of a command with these fields. -/
def commandBits (f : Fields) : InstrBits := .command (wordOf f)

/-- Encode an instruction: the fields of R74 with every must-be-zero field 0, or the opcode byte itself. -/
def encode : Instr → InstrBits
  | .rd8 id => commandBits ⟨0x0, id.code, 0, 0⟩
  | .wr8 id v => commandBits ⟨0x1, id.code, 0, v.setWidth 16⟩
  | .rd16 id => commandBits ⟨0x2, id.code, 0, 0⟩
  | .wr16 id v => commandBits ⟨0x3, id.code, 0, v⟩
  | .rdpc => commandBits ⟨0x4, 0, 0, 0⟩
  | .rdsp => commandBits ⟨0x5, 0, 0, 0⟩
  | .incpc amount => commandBits ⟨0x6, 0, 0, amount⟩
  | .getc => commandBits ⟨0x7, 0, 0, 0⟩
  | .setc state => commandBits ⟨0x8, 0, bitOf state, 0⟩
  | .rdime => commandBits ⟨0x9, 0, 0, 0⟩
  | .wrime state => commandBits ⟨0xA, 0, bitOf state, 0⟩
  | .clkrd sel => commandBits ⟨0xB, sel.code, 0, 0⟩
  | .clkadd sel amount => commandBits ⟨0xC, sel.code, 0, amount⟩
  | .step => commandBits ⟨0xD, 0, 0, 0⟩
  | .opcode b => .opcodeByte b

/-- The command word of an instruction; the opcode byte has none. -/
def commandWord? (i : Instr) : Option CommandWord :=
  match encode i with
  | .command w => some w
  | .opcodeByte _ => none

/-! ## The table's words -/

/-- The instruction read from `nbits` bits `w`, numbered as spec/opcode_table.json numbers them: 24 bits are a
command word, 8 bits an opcode byte; no row has another width. -/
def decodeTableWord (nbits w : Nat) : Option Instr :=
  if nbits = 24 ∧ w < 2 ^ 24 then (decode (.command (BitVec.ofNat 24 w))).toOption
  else if nbits = 8 ∧ w < 2 ^ 8 then (decode (.opcodeByte (BitVec.ofNat 8 w))).toOption
  else none

end Sys2Proof
end

