-- ==== Sys2Proof/Machine/Flags.lean ====
section
/-! DEFINITION. The flag bits of the flag lane F (10_state.md R31, R32) and the carry helpers on a byte
(41_flag_helpers.md R110, R111). No command sets a flag as a side effect (R114). -/

namespace Sys2Proof.Machine

open Sys2Proof

/-- The flag bits the spec names in F (10_state.md R31). -/
inductive FlagBit where
  | zero | subtract | halfCarry | carry
deriving DecidableEq, Repr, Inhabited

/-- Their positions (10_state.md R31). Only the carry has a helper; the others are ordinary storage. -/
def FlagBit.position : FlagBit → Nat
  | .zero => 7
  | .subtract => 6
  | .halfCarry => 5
  | .carry => Config.carryBit

/-- The byte with the carry bit alone. -/
def carryMask : Byte := 1#8 <<< FlagBit.carry.position

/-- The carry of a flag byte: that bit alone (41 R110). -/
def carryOf (f : Byte) : Bool := f.getLsbD FlagBit.carry.position

/-- The flag byte with its carry set or cleared, every other bit unchanged (41 R111). -/
def withCarry (f : Byte) (state : Bool) : Byte :=
  (f &&& ~~~carryMask) ||| (if state then carryMask else 0)

end Sys2Proof.Machine
end

