-- ==== Sys2Proof/Machine/FlagHelpers.lean ====
section
/-! DEFINITION. GETC and SETC on the flag lane (41_flag_helpers.md R110, R111). -/

namespace Sys2Proof.Machine

open Sys2Proof

/-- GETC (R110). -/
def coreGetc (c : CoreState) : CoreReply := c.answer (.flag (carryOf (c.readR8 Config.flagLane)))

/-- SETC (R111). -/
def coreSetc (state : Bool) (c : CoreState) : CoreReply :=
  (c.writeR8 Config.flagLane (withCarry (c.readR8 Config.flagLane) state)).done

/-- The meaning of GETC. -/
def execGetc (s : State) : Host.Outcome State Fault Refusal := .next (s.finish (coreGetc s.core))

/-- The meaning of SETC. -/
def execSetc (state : Bool) (s : State) : Host.Outcome State Fault Refusal :=
  .next (s.finish (coreSetc state s.core))

end Sys2Proof.Machine
end

