-- ==== Sys2Proof/Machine/RegisterFile.lean ====
section
/-! DEFINITION. The register file accessors (42_register_file_accessors.md): for each command its effect on the block
(`core…`, shared by the host and by behaviours) and its meaning as a command the host issues (`exec…`). -/

namespace Sys2Proof.Machine

open Sys2Proof

/-- RD8 (R121). -/
def coreRd8 (id : R8Id) (c : CoreState) : CoreReply := c.answer (.byte (c.readR8 id))

/-- WR8 (R122). -/
def coreWr8 (id : R8Id) (v : Byte) (c : CoreState) : CoreReply := (c.writeR8 id v).done

/-- RD16 (R123). -/
def coreRd16 (id : R16Id) (c : CoreState) : CoreReply := c.answer (.word (c.readR16 id))

/-- WR16 (R125). -/
def coreWr16 (id : R16Id) (v : Word) (c : CoreState) : CoreReply := (c.writeR16 id v).done

/-- RDPC (R126). -/
def coreRdpc (c : CoreState) : CoreReply := c.answer (.word c.pc)

/-- RDSP (R127). -/
def coreRdsp (c : CoreState) : CoreReply := c.answer (.word c.sp)

/-- INCPC (R128): addition modulo 65536, never a failure (R129). -/
def coreIncpc (amount : Word) (c : CoreState) : CoreReply := CoreState.done { c with pc := c.pc + amount }

/-- RDIME (R130). -/
def coreRdime (c : CoreState) : CoreReply := c.answer (.flag c.ime)

/-- WRIME (R131). -/
def coreWrime (state : Bool) (c : CoreState) : CoreReply := CoreState.done { c with ime := state }

/-- The meaning of RD8. -/
def execRd8 (id : R8Id) (s : State) : Host.Outcome State Fault Refusal := .next (s.finish (coreRd8 id s.core))

/-- The meaning of WR8. -/
def execWr8 (id : R8Id) (v : Byte) (s : State) : Host.Outcome State Fault Refusal :=
  .next (s.finish (coreWr8 id v s.core))

/-- The meaning of RD16. -/
def execRd16 (id : R16Id) (s : State) : Host.Outcome State Fault Refusal := .next (s.finish (coreRd16 id s.core))

/-- The meaning of WR16. -/
def execWr16 (id : R16Id) (v : Word) (s : State) : Host.Outcome State Fault Refusal :=
  .next (s.finish (coreWr16 id v s.core))

/-- The meaning of RDPC. -/
def execRdpc (s : State) : Host.Outcome State Fault Refusal := .next (s.finish (coreRdpc s.core))

/-- The meaning of RDSP. -/
def execRdsp (s : State) : Host.Outcome State Fault Refusal := .next (s.finish (coreRdsp s.core))

/-- The meaning of INCPC. -/
def execIncpc (amount : Word) (s : State) : Host.Outcome State Fault Refusal :=
  .next (s.finish (coreIncpc amount s.core))

/-- The meaning of RDIME. -/
def execRdime (s : State) : Host.Outcome State Fault Refusal := .next (s.finish (coreRdime s.core))

/-- The meaning of WRIME. -/
def execWrime (state : Bool) (s : State) : Host.Outcome State Fault Refusal :=
  .next (s.finish (coreWrime state s.core))

end Sys2Proof.Machine
end

