-- ==== Sys2Proof/Machine/Behaviour.lean ====
section
/-! DEFINITION. What a behaviour does during a step (44_dispatcher.md R154): it issues accessor commands, each under
its own rule, and memory accesses, in its own order (30_encoding.md R85; 20_memory.md R62), and returns its cost. -/

namespace Sys2Proof.Machine

open Sys2Proof

/-- The effect of an accessor command on the block; none for STEP and for the opcode byte, which a behaviour cannot
issue (30_encoding.md R85). -/
def accessorReply? (width : Option Nat) (i : Instr) (c : CoreState) : Option CoreReply :=
  match i with
  | .rd8 id => some (coreRd8 id c)
  | .wr8 id v => some (coreWr8 id v c)
  | .rd16 id => some (coreRd16 id c)
  | .wr16 id v => some (coreWr16 id v c)
  | .rdpc => some (coreRdpc c)
  | .rdsp => some (coreRdsp c)
  | .incpc amount => some (coreIncpc amount c)
  | .getc => some (coreGetc c)
  | .setc state => some (coreSetc state c)
  | .rdime => some (coreRdime c)
  | .wrime state => some (coreWrime state c)
  | .clkrd sel => some (coreClkrd sel c)
  | .clkadd sel amount => some (coreClkadd width sel amount c)
  | .step => none
  | .opcode _ => none

/-- A command word a behaviour issues: an accessor runs; an illegal word and a nested STEP change nothing, and the
behaviour gets IllegalCommand(word) (30_encoding.md R77, R85; 60_exceptions.md R184). -/
def issueWord (width : Option Nat) (w : CommandWord) (c : CoreState) : CoreReply :=
  match decodeCommand w with
  | .error _ => ⟨c, .illegalCommand w⟩
  | .ok i =>
    match accessorReply? width i c with
    | some r => r
    | none => ⟨c, .illegalCommand w⟩

/-- The number a script receives for a value. -/
def Value.toNat : Value → Nat
  | .none => 0
  | .byte x => x.toNat
  | .word x => x.toNat
  | .flag x => x.toNat
  | .count x => x
  | .cost dm _ => dm

/-- A number for a payload. -/
def MemErr.toNat : MemErr → Nat
  | .number n => n
  | .other x => x.code

/-- The numbers a script finds in operand metadata. -/
def Meta.toList : Meta → List Nat
  | .numbers l => l
  | .other x => Config.metaNumbers x

/-- The number a script receives beside the status code: the value of a success, the word of an illegal command. -/
def Response.payload : Response → Nat
  | .ok v => v.toNat
  | .illegalCommand w => w.toNat
  | .unimplementedOpcode opcode _ => opcode.toNat
  | .invalidMemoryAccess e => e.toNat
  | .contractViolation opcode _ => opcode.toNat
  | .clockOverflow => 0

/-- The value of a script's expression; `operands` is the metadata, `env` the values received, newest first. -/
def evalExpr (operands : Meta) (env : List Nat) : Expr → Nat
  | .lit n => n
  | .slot i => env.getD i 0
  | .operand i => operands.toList.getD i 0
  | .add x y => evalExpr operands env x + evalExpr operands env y
  | .sub x y => evalExpr operands env x - evalExpr operands env y
  | .mul x y => evalExpr operands env x * evalExpr operands env y
  | .div x y => evalExpr operands env x / evalExpr operands env y
  | .mod x y => evalExpr operands env x % evalExpr operands env y
  | .and x y => evalExpr operands env x &&& evalExpr operands env y
  | .or x y => evalExpr operands env x ||| evalExpr operands env y
  | .xor x y => evalExpr operands env x ^^^ evalExpr operands env y
  | .eq x y => (evalExpr operands env x == evalExpr operands env y).toNat
  | .lt x y => (decide (evalExpr operands env x < evalExpr operands env y)).toNat

/-- How a behaviour ends: with its results (44_dispatcher.md R154), with a memory error (R156), or with an overflow
of its own CLKADD, which ends the whole step (43_clock.md R142). -/
inductive BehResult where
  | done (core : CoreState) (mem : Mem) (dm dt : Nat)
  | memError (e : MemErr)
  | overflow
deriving DecidableEq, Repr, Inhabited

/-- Run a script: commands and memory accesses in order, each seeing the effects of those before it
(70_reset_and_hazards.md R205). -/
def runScript (width : Option Nat) (operands : Meta) : Script → List Nat → CoreState → Mem → BehResult
  | .finish dm dt, env, c, mem => .done c mem (evalExpr operands env dm) (evalExpr operands env dt)
  | .command word next, env, c, mem =>
    let r := issueWord width (BitVec.ofNat 24 (evalExpr operands env word)) c
    if r.response = .clockOverflow then .overflow
    else runScript width operands next (r.response.payload :: r.response.status.toNat :: env) r.core mem
  | .read addr next, env, c, mem =>
    match memRead mem (BitVec.ofNat 16 (evalExpr operands env addr)) with
    | .error e => .memError e
    | .ok (v, mem') => runScript width operands next (v.toNat :: env) c mem'
  | .write addr value next, env, c, mem =>
    match memWrite mem (BitVec.ofNat 16 (evalExpr operands env addr)) (BitVec.ofNat 8 (evalExpr operands env value)) with
    | .error e => .memError e
    | .ok mem' => runScript width operands next env c mem'
  | .branch cond onTrue onFalse, env, c, mem =>
    if evalExpr operands env cond = 0 then runScript width operands onFalse env c mem
    else runScript width operands onTrue env c mem

/-- Run a behaviour (44_dispatcher.md R154): a script from no received values, or an external behaviour, whose
result is a free value. -/
def runBehaviour (width : Option Nat) (b : Behaviour) (operands : Meta) (c : CoreState) (mem : Mem) : BehResult :=
  match b with
  | .script body => runScript width operands body [] c mem
  | .external id =>
    match Config.behave id c mem operands with
    | .error e => .memError e
    | .ok r => .done r.core (mem.applyEffect r.memory) r.dm r.dt

end Sys2Proof.Machine
end

