-- ==== Sys2Proof/Machine/Dispatcher.lean ====
section
/-! DEFINITION. The dispatcher (44_dispatcher.md R150 to R160): STEP, and the opcode byte it fetches. -/

namespace Sys2Proof.Machine

open Sys2Proof

/-- The clock contract: the returned state's clock is the old clock plus the returned cost (R155). -/
def keepsContract (before after : Clock) (dm dt : Nat) : Bool := decide (after = ⟨before.m + dm, before.t + dt⟩)

/-- Judge a behaviour's result, in the order of 60_exceptions.md R189: its memory error, an overflow of its own
CLKADD, the clock contract, the clock's maximum; then commit all effects at once (44 R150, R156, R157). `before` is
the state before the step; every failure is raised from it. -/
def commit (before : State) (opc : Byte) : BehResult → State
  | .memError e => before.raise (.invalidMemoryAccess e)
  | .overflow => before.raise .clockOverflow
  | .done c mem dm dt =>
    if !keepsContract before.core.clk c.clk dm dt then before.raise (.contractViolation opc before.core.pc)
    else if !c.clk.fits before.clockWidth then before.raise .clockOverflow
    else State.respond { before with core := c, mem := mem } (.ok (.cost dm dt))

/-- Resolve the fetched opcode and invoke its behaviour on the memory as the fetch left it (R152 to R155). -/
def runOpcode (before : State) (opc : Byte) (fetched : Mem) : State :=
  match (before.table.descriptor opc).kind with
  | .placeholder => before.raise (.unimplementedOpcode opc before.core.pc)
  | .implemented b =>
    commit before opc
      (runBehaviour before.clockWidth b (before.table.descriptor opc).operands before.core fetched)

/-- One step: read PC, fetch one byte, resolve, invoke (R150, R151). A failed fetch never consults the table. -/
def runStep (before : State) : State :=
  match memRead before.mem before.core.pc with
  | .error e => before.raise (.invalidMemoryAccess e)
  | .ok (opc, fetched) => runOpcode before opc fetched

/-- The meaning of STEP. -/
def execStep (s : State) : Host.Outcome State Fault Refusal := .next (runStep s)

/-- The meaning of a fetched opcode byte: the part of STEP after the fetch, with the memory unchanged by the fetch. -/
def execOpcode (opc : Byte) (s : State) : Host.Outcome State Fault Refusal := .next (runOpcode s opc s.mem)

end Sys2Proof.Machine
end

