-- ==== Sys2Proof/Machine/Dispatch.lean ====
section
/-! DEFINITION. exec: one arm for each constructor of Instr, each the direct call of its meaning. -/

namespace Sys2Proof.Machine

open Sys2Proof

def exec (i : Instr) (s : State) : Host.Outcome State Fault Refusal :=
  match i with
  | .rd8 id => Sys2Proof.Machine.execRd8 id s
  | .wr8 id v => Sys2Proof.Machine.execWr8 id v s
  | .rd16 id => Sys2Proof.Machine.execRd16 id s
  | .wr16 id v => Sys2Proof.Machine.execWr16 id v s
  | .rdpc => Sys2Proof.Machine.execRdpc s
  | .rdsp => Sys2Proof.Machine.execRdsp s
  | .incpc amount => Sys2Proof.Machine.execIncpc amount s
  | .getc => Sys2Proof.Machine.execGetc s
  | .setc state => Sys2Proof.Machine.execSetc state s
  | .rdime => Sys2Proof.Machine.execRdime s
  | .wrime state => Sys2Proof.Machine.execWrime state s
  | .clkrd sel => Sys2Proof.Machine.execClkrd sel s
  | .clkadd sel amount => Sys2Proof.Machine.execClkadd sel amount s
  | .step => Sys2Proof.Machine.execStep s
  | .opcode opc => Sys2Proof.Machine.execOpcode opc s

end Sys2Proof.Machine
end

