-- ==== Sys2Proof/Machine/HostInterface.lean ====
section
/-! DEFINITION. The host's side of the block (44_dispatcher.md R161, R166, R167): construction, memory setup, illegal
words at the command interface, what a run shows, and how an instruction is placed so that the next step runs it. -/

namespace Sys2Proof.Machine

open Sys2Proof

/-- A table of exactly 256 descriptors, or the number given (R161). -/
def tableOf (descriptors : List Descriptor) : Except Nat Table :=
  if h : descriptors.length = 256 then .ok (.given ⟨descriptors.toArray, by simp [h]⟩)
  else .error descriptors.length

/-- `new(T)` (R161; 70 R200): every field of the block at its reset value, with the given table. The memory is the
collaborator's and is kept (70 R202); a new run of responses begins (44 R167). -/
def constructState (s : State) (descriptors : List Descriptor) : Host.Outcome State Fault Refusal :=
  match tableOf descriptors with
  | .error n => .fault (.constructionError n)
  | .ok t => .next { s with core := CoreState.reset, table := t, responses := [] }

/-- The host sets memory up between steps (R166). -/
def setMemory (s : State) (e : MemEffect) : State := { s with mem := s.mem.applyEffect e }

/-- An illegal word the host issues: IllegalCommand(word), and nothing runs (30_encoding.md R77; 60 R184). -/
def rejectWord (s : State) (w : CommandWord) : State := s.raise (.illegalCommand w)

/-- Decode and execute a command word the host issues (30_encoding.md R77, R79). -/
def runCommand (w : CommandWord) (s : State) : Host.Outcome State Fault Refusal :=
  match decodeCommand w with
  | .error _ => .next (rejectWord s w)
  | .ok i => exec i s

/-- What a run shows: the responses, and the final block and memory (R167). -/
def State.observation (s : State) : List Response × CoreState × Mem := (s.responses, s.core, s.mem)

/-- The state with a command word as the host's next action. -/
def placeCommand (s : State) (w : CommandWord) : State := { s with inputs := .command w :: s.inputs }

/-- The memory with an opcode byte that a fetch at the address reads: where the map keeps the address from being
plain memory, a region of one ordinary byte is put before it. -/
def placeByte (mem : Mem) (a : Word) (b : Byte) : Mem :=
  match mem.kindAt a with
  | .ordinary => mem.poke a b
  | .readOnly _ => mem.poke a b
  | .guarded => mem.poke a b
  | .faulting _ _ => Mem.poke { mem with map := ⟨a.toNat, 1, .ordinary⟩ :: mem.map } a b
  | .mmio => Mem.poke { mem with map := ⟨a.toNat, 1, .ordinary⟩ :: mem.map } a b

/-- The word of STEP (30_encoding.md R76). -/
def stepWord : CommandWord := 0xD00000

end Sys2Proof.Machine
end

