-- ==== Sys2Proof/Machine/Step.lean ====
section
/-! DEFINITION. One step of the machine: the host's next pending action is carried out, whole, before the next one
(30_encoding.md R84). A command word is decoded and executed; an illegal one is answered IllegalCommand. With no
action pending the block is idle and keeps all state (60_exceptions.md R199). -/

namespace Sys2Proof.Machine

open Sys2Proof

/-- One step. -/
def step (s : State) : Host.Outcome State Fault Refusal :=
  match s.inputs with
  | [] => .next s
  | .command w :: rest => runCommand w { s with inputs := rest }
  | .memory e :: rest => .next (setMemory { s with inputs := rest } e)
  | .construct t :: rest => constructState { s with inputs := rest } t

/-- The state with the instruction of `nbits` bits `w` as the next one to run: a command word becomes the host's next
action; an opcode byte is placed in memory at PC, and the host's next action is STEP, which fetches it. -/
def State.withFetchWord (s : State) (nbits w : Nat) : State :=
  if nbits = 24 then placeCommand s (BitVec.ofNat 24 w)
  else if nbits = 8 then placeCommand { s with mem := placeByte s.mem s.core.pc (BitVec.ofNat 8 w) } stepWord
  else s

end Sys2Proof.Machine
end

