-- ==== Sys2Proof/Machine/Assembler.lean ====
section
/-! DEFINITION. The assembler syntax of the command set (30_encoding.md R86): one command per line, mnemonic first,
operands separated by commas; numbers decimal or 0x hexadecimal; register names and M/T in either case. There is no
pseudo-instruction (R87). DEDUCED: mnemonics are in capitals and blanks may stand around every part (entry 22). -/

namespace Sys2Proof.Machine

open Sys2Proof

/-- A blank of a line. -/
def isBlank (ch : Char) : Bool := ch == ' ' || ch == '\t'

/-- Drop the blanks in front. -/
def dropBlanks : List Char → List Char
  | [] => []
  | ch :: rest => if isBlank ch then dropBlanks rest else ch :: rest

/-- Drop the blanks on both sides. -/
def trim (cs : List Char) : List Char := (dropBlanks (dropBlanks cs).reverse).reverse

/-- The characters before the first one that satisfies the test, and those from it on. -/
def splitAtFirst (test : Char → Bool) : List Char → List Char × List Char
  | [] => ([], [])
  | ch :: rest =>
    if test ch then ([], ch :: rest)
    else ((ch :: (splitAtFirst test rest).1), (splitAtFirst test rest).2)

/-- The parts between commas; one (empty) part for an empty text. -/
def splitCommas : List Char → List (List Char)
  | [] => [[]]
  | ch :: rest =>
    if ch == ',' then [] :: splitCommas rest
    else
      match splitCommas rest with
      | [] => [[ch]]
      | part :: parts => (ch :: part) :: parts

/-- The operands of a line after its mnemonic: none for a blank text. -/
def operandsOf (cs : List Char) : List (List Char) :=
  if trim cs = [] then [] else (splitCommas cs).map trim

/-- A small letter as its capital. -/
def capital (ch : Char) : Char := if 'a' ≤ ch ∧ ch ≤ 'z' then Char.ofNat (ch.toNat - 32) else ch

/-- The value of a digit in a base of at most 16. -/
def digitValue? (base : Nat) (ch : Char) : Option Nat :=
  let n := (capital ch).toNat
  let v := if 48 ≤ n ∧ n ≤ 57 then n - 48 else if 65 ≤ n ∧ n ≤ 70 then n - 55 else 16
  if v < base then some v else none

/-- A number's digits, the value so far first. -/
def digits? (base : Nat) : Nat → List Char → Option Nat
  | acc, [] => some acc
  | acc, ch :: rest =>
    match digitValue? base ch with
    | some v => digits? base (acc * base + v) rest
    | none => none

/-- A number, decimal or `0x` hexadecimal. -/
def number? : List Char → Option Nat
  | [] => none
  | '0' :: 'x' :: ch :: rest => digits? 16 0 (ch :: rest)
  | cs => digits? 10 0 cs

/-- A number of 0..255. -/
def byte? (cs : List Char) : Option Byte :=
  match number? cs with
  | some n => if n < 256 then some (BitVec.ofNat 8 n) else none
  | none => none

/-- A number of 0..65535. -/
def word? (cs : List Char) : Option Word :=
  match number? cs with
  | some n => if n < 65536 then some (BitVec.ofNat 16 n) else none
  | none => none

/-- `0` or `1`. -/
def bit? (cs : List Char) : Option Bool :=
  match number? cs with
  | some 0 => some false
  | some 1 => some true
  | some _ => none
  | none => none

/-- An 8-bit register name. -/
def r8Name? (cs : List Char) : Option R8Id :=
  match cs.map capital with
  | ['B'] => some .b
  | ['C'] => some .c
  | ['D'] => some .d
  | ['E'] => some .e
  | ['H'] => some .h
  | ['L'] => some .l
  | ['A'] => some .a
  | ['F'] => some .f
  | _ => none

/-- A 16-bit register name. -/
def r16Name? (cs : List Char) : Option R16Id :=
  match cs.map capital with
  | ['B', 'C'] => some .bc
  | ['D', 'E'] => some .de
  | ['H', 'L'] => some .hl
  | ['A', 'F'] => some .af
  | ['S', 'P'] => some .sp
  | ['P', 'C'] => some .pc
  | _ => none

/-- `M` or `T`. -/
def clockName? (cs : List Char) : Option ClockSel :=
  match cs.map capital with
  | ['M'] => some .m
  | ['T'] => some .t
  | _ => none

/-- A command from its mnemonic and operands: the fourteen lines of R86. -/
def commandOf? (mnemonic : List Char) (operands : List (List Char)) : Option Instr :=
  match operands with
  | [] =>
    match mnemonic with
    | ['R', 'D', 'P', 'C'] => some .rdpc
    | ['R', 'D', 'S', 'P'] => some .rdsp
    | ['G', 'E', 'T', 'C'] => some .getc
    | ['R', 'D', 'I', 'M', 'E'] => some .rdime
    | ['S', 'T', 'E', 'P'] => some .step
    | _ => none
  | [x] =>
    match mnemonic with
    | ['R', 'D', '8'] => (r8Name? x).map .rd8
    | ['R', 'D', '1', '6'] => (r16Name? x).map .rd16
    | ['I', 'N', 'C', 'P', 'C'] => (word? x).map .incpc
    | ['S', 'E', 'T', 'C'] => (bit? x).map .setc
    | ['W', 'R', 'I', 'M', 'E'] => (bit? x).map .wrime
    | ['C', 'L', 'K', 'R', 'D'] => (clockName? x).map .clkrd
    | _ => none
  | [x, y] =>
    match mnemonic with
    | ['W', 'R', '8'] =>
      match r8Name? x, byte? y with
      | some id, some v => some (.wr8 id v)
      | _, _ => none
    | ['W', 'R', '1', '6'] =>
      match r16Name? x, word? y with
      | some id, some v => some (.wr16 id v)
      | _, _ => none
    | ['C', 'L', 'K', 'A', 'D', 'D'] =>
      match clockName? x, word? y with
      | some sel, some v => some (.clkadd sel v)
      | _, _ => none
    | _ => none
  | _ => none

/-- The command on a line. -/
def parseLine? (line : List Char) : Option Instr :=
  commandOf? (splitAtFirst isBlank (dropBlanks line)).1 (operandsOf (splitAtFirst isBlank (dropBlanks line)).2)

/-- The command word of a line. -/
def assembleLine? (line : List Char) : Option CommandWord := (parseLine? line).bind commandWord?

/-- The command words of a program, one command per line. -/
def assemble? (lines : List (List Char)) : Option (List CommandWord) :=
  match lines with
  | [] => some []
  | line :: rest =>
    match assembleLine? line, assemble? rest with
    | some w, some ws => some (w :: ws)
    | _, _ => none

end Sys2Proof.Machine
end

