-- ==== Sys2Proof/Safety.lean ====
section
/-! DEFINITION. What counts as a good state and a safe run, in the terms statements use. -/

namespace Sys2Proof.Machine

open Sys2Proof

/-- The invariant of the machine: memory is in canonical form and both clock counters fit CLOCK_WIDTH
(43_clock.md R142). -/
abbrev State.Inv (s : State) : Prop := s.mem.wf = true ∧ s.core.clk.fits s.clockWidth = true

/-- The host action does not construct a processor: the life of one processor goes on (70 R202). -/
def HostInput.keepsProcessor : HostInput → Bool
  | .command _ => true
  | .memory _ => true
  | .construct _ => false

/-- The host's next action, if any, is not a construction. -/
def State.processorLives (s : State) : Bool :=
  match s.inputs with
  | [] => true
  | i :: _ => i.keepsProcessor

/-- Every table the host constructs a processor with has exactly 256 descriptors (44_dispatcher.md R161). -/
def tablesComplete : List HostInput → Bool
  | [] => true
  | .construct t :: rest => (t.length == 256) && tablesComplete rest
  | .command _ :: rest => tablesComplete rest
  | .memory _ :: rest => tablesComplete rest

/-- The last response of a run is a failure. -/
def State.lastFailed (s : State) : Bool :=
  match s.responses.getLast? with
  | some r => r.isFailure
  | none => false

/-- Command words are queued, in order, for the machine to run. -/
def State.withCommands (s : State) (ws : List CommandWord) : State := { s with inputs := ws.map .command }

end Sys2Proof.Machine
end

