-- ==== Sys2Proof/Certificates/Slice0/Obligations.lean ====
section
/-! DEFINITION. The statements for the provers. The helpers under Sys2Proof.Spec say the spec's tables and phrases
again, apart from the model's own definitions: identifier codes (30_encoding.md R71, R72), masks (R76), the storage an
identifier names (10_state.md R25, R26). -/

/-! ## The spec's tables, said again -/

namespace Sys2Proof.Spec

open Sys2Proof Sys2Proof.Machine

/-- The `id8` codes 0..7 (R71). -/
def r8Codes : List R8Id := [.b, .c, .d, .e, .h, .l, .a, .f]

/-- The `id16` codes 0..5 (R72). -/
def r16Codes : List R16Id := [.bc, .de, .hl, .af, .sp, .pc]

/-- The counter codes 0 and 1 (R74). -/
def clockCodes : List ClockSel := [.m, .t]

/-- `sel`, bits 19..17 of a word. -/
def selField (w : CommandWord) : Nat := w.toNat / 2 ^ 17 % 8

/-- `b`, bit 16. -/
def bField (w : CommandWord) : Bool := w.getLsbD 16

/-- `imm`, bits 15..0. -/
def immField (w : CommandWord) : Word := BitVec.ofNat 16 w.toNat

/-- `imm[7:0]`. -/
def byteField (w : CommandWord) : Byte := BitVec.ofNat 8 w.toNat

/-- `op`, bits 23..20. -/
def opField (w : CommandWord) : Nat := w.toNat / 2 ^ 20

/-- The masks and matches of R76, in the order of the command codes. -/
def maskTable : List (CommandWord × CommandWord) :=
  [ (0xF1FFFF, 0x000000), (0xF1FF00, 0x100000), (0xF1FFFF, 0x200000), (0xF10000, 0x300000),
    (0xFFFFFF, 0x400000), (0xFFFFFF, 0x500000), (0xFF0000, 0x600000), (0xFFFFFF, 0x700000),
    (0xFEFFFF, 0x800000), (0xFFFFFF, 0x900000), (0xFEFFFF, 0xA00000), (0xFDFFFF, 0xB00000),
    (0xFD0000, 0xC00000), (0xFFFFFF, 0xD00000) ]

/-- The three cases of R77. -/
def Illegal (w : CommandWord) : Prop :=
  (opField w = 0xE ∨ opField w = 0xF) ∨
    (∃ row, maskTable[opField w]? = some row ∧ w &&& row.1 ≠ row.2) ∨
    ((opField w = 0x2 ∨ opField w = 0x3) ∧ (selField w = 6 ∨ selField w = 7))

/-- The lane an 8-bit identifier names (10_state.md R25). -/
def lane : R8Id → CoreState → Byte
  | .b, c => c.bc.high
  | .c, c => c.bc.low
  | .d, c => c.de.high
  | .e, c => c.de.low
  | .h, c => c.hl.high
  | .l, c => c.hl.low
  | .a, c => c.af.high
  | .f, c => c.af.low

/-- The state with that lane alone written (42 R122). -/
def withLane : R8Id → Byte → CoreState → CoreState
  | .b, v, c => { c with bc := { c.bc with high := v } }
  | .c, v, c => { c with bc := { c.bc with low := v } }
  | .d, v, c => { c with de := { c.de with high := v } }
  | .e, v, c => { c with de := { c.de with low := v } }
  | .h, v, c => { c with hl := { c.hl with high := v } }
  | .l, v, c => { c with hl := { c.hl with low := v } }
  | .a, v, c => { c with af := { c.af with high := v } }
  | .f, v, c => { c with af := { c.af with low := v } }

/-- `pairs[p].high · 256 + pairs[p].low` (40 R100). -/
def composed (p : RegPair) : Word := BitVec.ofNat 16 (p.high.toNat * 256 + p.low.toNat)

/-- The lanes `v[15:8]` and `v[7:0]` (40 R101). -/
def decomposed (v : Word) : RegPair := ⟨BitVec.ofNat 8 (v.toNat / 256), BitVec.ofNat 8 (v.toNat % 256)⟩

/-- The 16-bit value a wide identifier names (10_state.md R26). -/
def wide : R16Id → CoreState → Word
  | .pc, c => c.pc
  | .sp, c => c.sp
  | .bc, c => composed c.bc
  | .de, c => composed c.de
  | .hl, c => composed c.hl
  | .af, c => composed c.af

/-- The state with that storage alone written (42 R125). -/
def withWide : R16Id → Word → CoreState → CoreState
  | .pc, v, c => { c with pc := v }
  | .sp, v, c => { c with sp := v }
  | .bc, v, c => { c with bc := decomposed v }
  | .de, v, c => { c with de := decomposed v }
  | .hl, v, c => { c with hl := decomposed v }
  | .af, v, c => { c with af := decomposed v }

/-- The counter CLKRD and CLKADD select (43 R140). -/
def counter : ClockSel → CoreState → Nat
  | .m, c => c.clk.m
  | .t, c => c.clk.t

/-- The state with that counter alone changed. -/
def withCounter : ClockSel → Nat → CoreState → CoreState
  | .m, n, c => { c with clk := { c.clk with m := n } }
  | .t, n, c => { c with clk := { c.clk with t := n } }

/-- CLOCK_WIDTH is finite and the value passes `2^CLOCK_WIDTH − 1` (43 R142). -/
def Passes (width : Option Nat) (n : Nat) : Prop := ∃ k, width = some k ∧ n > 2 ^ k - 1

/-- The response is a failure: not an `ok` (30 R80). -/
def Failure (r : Response) : Prop := ∀ v, r ≠ .ok v

/-- The instruction executes to a next state: the block's state is `c`, the response `r` is recorded, and everything
else is as it was. -/
def Answers (i : Instr) (s : State) (c : CoreState) (r : Response) : Prop :=
  exec i s = .next { s with core := c, responses := s.responses ++ [r] }

/-- The instruction fails: the failure is recorded and nothing else changes. -/
def Fails (i : Instr) (s : State) (r : Response) : Prop :=
  exec i s = .next { s with responses := s.responses ++ [r] }

/-- What a command word with code `op` does when the host issues it: one that satisfies mask and match, and whose
operands name something, executes as `meaning` says; any other is answered IllegalCommand(word) and nothing runs. -/
def WordRule (op : Nat) (mask mtch : CommandWord) (meaning : CommandWord → Option Instr) : Prop :=
  ∀ (w : CommandWord) (s : State) (rest : List HostInput), opField w = op →
    step { s with inputs := .command w :: rest } =
      match (if w &&& mask = mtch then meaning w else none) with
      | some i => exec i { s with inputs := rest }
      | none => .next { s with inputs := rest, responses := s.responses ++ [.illegalCommand w] }

/-- The lanes an accessor may change (42 R132). -/
def mayChangeLane : Instr → R8Id → Bool
  | .wr8 id _, id' => id' == id
  | .wr16 .bc _, id' => id' == .b || id' == .c
  | .wr16 .de _, id' => id' == .d || id' == .e
  | .wr16 .hl _, id' => id' == .h || id' == .l
  | .wr16 .af _, id' => id' == .a || id' == .f
  | .setc _, id' => id' == .f
  | _, _ => false

/-- The accessors that may change PC. -/
def mayChangePc : Instr → Bool
  | .wr16 .pc _ => true
  | .incpc _ => true
  | _ => false

/-- The accessors that may change SP. -/
def mayChangeSp : Instr → Bool
  | .wr16 .sp _ => true
  | _ => false

/-- The accessors that may change the interrupt-enable flag. -/
def mayChangeIme : Instr → Bool
  | .wrime _ => true
  | _ => false

/-- The accessors that may change a counter. -/
def mayChangeCounter : Instr → ClockSel → Bool
  | .clkadd sel _, sel' => sel' == sel
  | _, _ => false

/-- The accessors that may write the flag lane: SETC, WR8 F and WR16 AF (41 R114). -/
def writesFlags : Instr → Bool
  | .setc _ => true
  | .wr8 .f _ => true
  | .wr16 .af _ => true
  | _ => false

/-- No pending action constructs a processor. -/
def noConstruction (s : State) : Prop := ∀ i ∈ s.inputs, ∀ ds, i ≠ .construct ds

/-- The block with another interrupt-enable flag. -/
def withIme (s : State) (b : Bool) : State := { s with core := { s.core with ime := b } }

/-- A behaviour that issues INCPC 1, CLKADD M, 1 and CLKADD T, 4 and returns the cost (1, 4): F_NOP of
95_test_vectors.md. -/
def nopScript : Script :=
  .command (.lit 0x600001) (.command (.lit 0xC00001) (.command (.lit 0xC20004) (.finish (.lit 1) (.lit 4))))

end Sys2Proof.Spec

open Sys2Proof Sys2Proof.Machine Sys2Proof.Spec

/-! ## Encoding -/

/-- Decoding an encoded instruction gives it back, with every operand at every value (30_encoding.md R74, R75). -/
def Obligations.DecodeOfEncodeIsTheInstruction : Prop := ∀ i : Instr, decode (encode i) = .ok i

/-- Where bits decode, encoding the instruction gives the bits back: no word has two meanings and no bit of a legal
word is dropped (30_encoding.md R76, R79). -/
def Obligations.EncodeOfDecodeIsTheBits : Prop := ∀ (bits : InstrBits) (i : Instr), decode bits = .ok i → encode i = bits

/-- R77: a word is illegal exactly in its three cases; an illegal word changes nothing and is answered
IllegalCommand(word); any other is one of the commands and is executed. -/
def Obligations.IllegalWordsDoNotExecute : Prop :=
  ∀ (w : CommandWord) (s : State) (rest : List HostInput),
    (Illegal w → step { s with inputs := .command w :: rest } =
        .next { s with inputs := rest, responses := s.responses ++ [.illegalCommand w] }) ∧
      (¬Illegal w → ∃ i, decodeCommand w = .ok i ∧ i.isCommand = true ∧
        step { s with inputs := .command w :: rest } = exec i { s with inputs := rest })

/-- Words written out from the table of R74 and the vectors of 95_test_vectors.md decode to what they stand for. -/
def Obligations.WrittenOutWordsDecode : Prop :=
  decodeTableWord 24 0x1200FF = some (.wr8 .c 0xFF) ∧ decodeTableWord 24 0x2A0000 = some (.rd16 .pc) ∧
    decodeTableWord 24 0x60FFFF = some (.incpc 0xFFFF) ∧ decodeTableWord 24 0x810000 = some (.setc true) ∧
    decodeTableWord 24 0xC2FFFF = some (.clkadd .t 0xFFFF) ∧ decodeTableWord 24 0xD00000 = some .step ∧
    decodeTableWord 24 0x2C0000 = none ∧ decodeTableWord 24 0xF12345 = none ∧
    decodeTableWord 8 0xFF = some (.opcode 0xFF)

/-- R81: the status codes of the responses; codes 6 and 7 are never produced. -/
def Obligations.StatusCodesOfResponses : Prop :=
  (∀ v, (Response.ok v).status = 0) ∧ (∀ o p, (Response.unimplementedOpcode o p).status = 1) ∧
    (∀ e, (Response.invalidMemoryAccess e).status = 2) ∧ (∀ w, (Response.illegalCommand w).status = 3) ∧
    (∀ o p, (Response.contractViolation o p).status = 4) ∧ Response.clockOverflow.status = 5 ∧
    ∀ r : Response, r.status ≠ 6 ∧ r.status ≠ 7

/-- Lines of the assembler syntax (R86) with the words 95_test_vectors.md gives them.
How blanks and letter case are read is the model's (log entry 22). -/
def Obligations.AssemblerLinesGiveTheirWords : Prop :=
  assembleLine? ['W', 'R', '1', '6', ' ', 'B', 'C', ',', ' ', '0', 'x', '1', '2', '3', '4'] = some 0x301234 ∧
    assembleLine? ['R', 'D', '8', ' ', 'f'] = some 0x0E0000 ∧
    assembleLine? ['I', 'N', 'C', 'P', 'C', ' ', '1'] = some 0x600001 ∧
    assembleLine? ['C', 'L', 'K', 'A', 'D', 'D', ' ', 'T', ',', ' ', '4'] = some 0xC20004 ∧
    assembleLine? ['S', 'T', 'E', 'P'] = some 0xD00000 ∧
    assembleLine? ['W', 'R', '8', ' ', 'C', ',', ' ', '2', '5', '6'] = none

/-! ## Steps of the machine -/

/-- A step whose next action is a legal command word is exec of that command, the word being taken off the queue. -/
def Obligations.StepRunsTheDecodedCommand : Prop :=
  ∀ (s : State) (w : CommandWord) (rest : List HostInput) (i : Instr), s.inputs = .command w :: rest →
    decodeCommand w = .ok i → step s = exec i { s with inputs := rest }

/-- With no action pending the block keeps all state (60_exceptions.md R199).
That a machine step with nothing pending is this idling is the model's inference (log entry 3). -/
def Obligations.IdleStepKeepsAllState : Prop := ∀ s : State, s.inputs = [] → step s = .next s

/-- The host's memory setup (44_dispatcher.md R166) does what it names and nothing else: the last byte named for an
address is read there, unless the setup makes the address unreadable; an address it makes unreadable fails with the
last payload named for it; every other address is as before; the device state is the one named. A setup that names no
address is one of them. The form of a setup is the model's (log entry 17). -/
def Obligations.MemorySetupChangesMemoryAlone : Prop :=
  ∀ (s : State) (e : MemEffect) (rest : List HostInput), s.inputs = .memory e :: rest →
    ∃ m, step s = .next { s with inputs := rest, mem := m } ∧ m.map = s.mem.map ∧ m.device = e.device ∧
      (∀ pre a v post, e.pokes = pre ++ (a, v) :: post → (∀ p ∈ post, p.1 ≠ a) → (∀ p ∈ e.unreadable, p.1 ≠ a) →
        m.content a = .ok v) ∧
      (∀ pre a err post, e.unreadable = pre ++ (a, err) :: post → (∀ p ∈ post, p.1 ≠ a) →
        m.content a = .error err) ∧
      ∀ b, (∀ p ∈ e.pokes, p.1 ≠ b) → (∀ p ∈ e.unreadable, p.1 ≠ b) → m.content b = s.mem.content b

/-- R161, R200: construction with exactly 256 descriptors gives the reset state of R40 with that table; with any other
number it fails with ConstructionError and that number.
That memory and CLOCK_WIDTH outlast a construction is the model's inference (log entry 16). -/
def Obligations.ConstructionNeeds256Descriptors : Prop :=
  ∀ (s : State) (ds : List Descriptor) (rest : List HostInput), s.inputs = .construct ds :: rest →
    (ds.length = 256 → ∃ t, step s = .next t ∧
      (∀ id, lane id t.core = 0) ∧ t.core.pc = 0 ∧ t.core.sp = 0 ∧ t.core.ime = false ∧ t.core.clk = ⟨0, 0⟩ ∧
      (∀ opc : Byte, ds[opc.toNat]? = some (t.table.descriptor opc)) ∧ t.mem = s.mem ∧ t.clockWidth = s.clockWidth) ∧
    (ds.length ≠ 256 → step s = .fault (.constructionError ds.length))

/-- R40: every register, the interrupt-enable flag and the counters right after reset. -/
def Obligations.ResetValuesOfTheBlock : Prop :=
  (∀ id, lane id State.reset.core = 0x00) ∧ (∀ id, wide id State.reset.core = 0x0000) ∧
    State.reset.core.ime = false ∧ State.reset.core.clk.m = 0 ∧ State.reset.core.clk.t = 0

/-! ## The accessors, whole: the word, its legality, and the effect -/

/-- RD8 (42 R121): every identifier's lane is returned, and nothing changes. -/
def Obligations.Rd8ReturnsTheLane : Prop :=
  WordRule 0x0 0xF1FFFF 0x000000 (fun w => r8Codes[selField w]?.map .rd8) ∧
    ∀ id s, Answers (.rd8 id) s s.core (.ok (.byte (lane id s.core)))

/-- WR8 (42 R122): the named lane is written and nothing else. -/
def Obligations.Wr8WritesTheLane : Prop :=
  WordRule 0x1 0xF1FF00 0x100000 (fun w => r8Codes[selField w]?.map fun id => .wr8 id (byteField w)) ∧
    ∀ id v s, Answers (.wr8 id v) s (withLane id v s.core) (.ok .none)

/-- RD16 (42 R123): PC, SP or the composition of the pair's lanes is returned, and nothing changes. -/
def Obligations.Rd16ReturnsTheWideRegister : Prop :=
  WordRule 0x2 0xF1FFFF 0x200000 (fun w => r16Codes[selField w]?.map .rd16) ∧
    ∀ id s, Answers (.rd16 id) s s.core (.ok (.word (wide id s.core)))

/-- WR16 (42 R125): PC, SP or both lanes of the pair are written and nothing else. -/
def Obligations.Wr16WritesTheWideRegister : Prop :=
  WordRule 0x3 0xF10000 0x300000 (fun w => r16Codes[selField w]?.map fun id => .wr16 id (immField w)) ∧
    ∀ id v s, Answers (.wr16 id v) s (withWide id v s.core) (.ok .none)

/-- RDPC (42 R126): PC is returned, as by RD16 PC, and nothing changes. -/
def Obligations.RdpcReturnsPc : Prop :=
  WordRule 0x4 0xFFFFFF 0x400000 (fun _ => some .rdpc) ∧
    ∀ s, Answers .rdpc s s.core (.ok (.word s.core.pc)) ∧ exec .rdpc s = exec (.rd16 .pc) s

/-- RDSP (42 R127): SP is returned, as by RD16 SP, and nothing changes. -/
def Obligations.RdspReturnsSp : Prop :=
  WordRule 0x5 0xFFFFFF 0x500000 (fun _ => some .rdsp) ∧
    ∀ s, Answers .rdsp s s.core (.ok (.word s.core.sp)) ∧ exec .rdsp s = exec (.rd16 .sp) s

/-- INCPC (42 R128): PC becomes the sum modulo 65536, and nothing else changes. -/
def Obligations.IncpcAddsModulo65536 : Prop :=
  WordRule 0x6 0xFF0000 0x600000 (fun w => some (.incpc (immField w))) ∧
    ∀ amount s, Answers (.incpc amount) s
      { s.core with pc := BitVec.ofNat 16 ((s.core.pc.toNat + amount.toNat) % 65536) } (.ok .none)

/-- GETC (41 R110): bit 4 of F is returned, whatever the other bits, and nothing changes. -/
def Obligations.GetcReturnsBit4OfF : Prop :=
  WordRule 0x7 0xFFFFFF 0x700000 (fun _ => some .getc) ∧
    ∀ s, Answers .getc s s.core (.ok (.flag (decide (s.core.af.low.toNat / 16 % 2 = 1))))

/-- SETC (41 R111): `F <- (F & 0xEF) | (state ? 0x10 : 0x00)` and nothing else changes. -/
def Obligations.SetcWritesBit4OfF : Prop :=
  WordRule 0x8 0xFEFFFF 0x800000 (fun w => some (.setc (bField w))) ∧
    ∀ state s, Answers (.setc state) s
      { s.core with af := { s.core.af with low := (s.core.af.low &&& 0xEF) ||| (if state then 0x10 else 0x00) } }
      (.ok .none)

/-- RDIME (42 R130). -/
def Obligations.RdimeReturnsIme : Prop :=
  WordRule 0x9 0xFFFFFF 0x900000 (fun _ => some .rdime) ∧ ∀ s, Answers .rdime s s.core (.ok (.flag s.core.ime))

/-- WRIME (42 R131). -/
def Obligations.WrimeWritesIme : Prop :=
  WordRule 0xA 0xFEFFFF 0xA00000 (fun w => some (.wrime (bField w))) ∧
    ∀ state s, Answers (.wrime state) s { s.core with ime := state } (.ok .none)

/-- CLKRD (43 R140): the full counter is returned, and nothing changes. -/
def Obligations.ClkrdReturnsTheCounter : Prop :=
  WordRule 0xB 0xFDFFFF 0xB00000 (fun w => clockCodes[selField w % 2]?.map .clkrd) ∧
    ∀ sel s, Answers (.clkrd sel) s s.core (.ok (.count (counter sel s.core)))

/-- CLKADD (43 R141): the amount is added to the one counter, exactly; where a finite CLOCK_WIDTH would be passed it
raises ClockOverflow and nothing changes. -/
def Obligations.ClkaddAddsOrOverflows : Prop :=
  WordRule 0xC 0xFD0000 0xC00000 (fun w => clockCodes[selField w % 2]?.map fun sel => .clkadd sel (immField w)) ∧
    ∀ sel amount s,
      (Passes s.clockWidth (counter sel s.core + amount.toNat) → Fails (.clkadd sel amount) s .clockOverflow) ∧
      (¬Passes s.clockWidth (counter sel s.core + amount.toNat) →
        Answers (.clkadd sel amount) s (withCounter sel (counter sel s.core + amount.toNat) s.core) (.ok .none))

/-! ## Laws of the register file -/

/-- R102: a 16-bit write to a pair and then a read return exactly the value, for every pair. -/
def Obligations.PairRoundTrip : Prop :=
  ∀ (id : R16Id) (v : Word) (s : State), id ≠ .pc → id ≠ .sp →
    ∃ t, exec (.wr16 id v) s = .next t ∧ Answers (.rd16 id) t t.core (.ok (.word v))

/-- R103: writing to a pair the 16-bit value read from it leaves both lanes, and all the block, as they were. -/
def Obligations.PairInverse : Prop :=
  ∀ (id : R16Id) (v : Word) (s t : State), id ≠ .pc → id ≠ .sp → exec (.rd16 id) s = .next t →
    t.responses = s.responses ++ [.ok (.word v)] → Answers (.wr16 id v) t s.core (.ok .none)

/-- R105: in every state the lanes of a pair are the high and the low byte of its 16-bit value. -/
def Obligations.LanesArePartsOfTheirPair : Prop :=
  ∀ (s : State) (id : R16Id) (high low : R8Id),
    (id, high, low) ∈ [(R16Id.bc, R8Id.b, R8Id.c), (.de, .d, .e), (.hl, .h, .l), (.af, .a, .f)] →
    ∃ v : Word, Answers (.rd16 id) s s.core (.ok (.word v)) ∧
      Answers (.rd8 high) s s.core (.ok (.byte (v.extractLsb' 8 8))) ∧
      Answers (.rd8 low) s s.core (.ok (.byte (v.extractLsb' 0 8)))

/-- R124, for every lane and every other lane: a written lane reads back the value, and no other lane is affected. -/
def Obligations.LaneIndependence : Prop :=
  ∀ (id other : R8Id) (v x : Byte) (s : State), other ≠ id → Answers (.rd8 other) s s.core (.ok (.byte x)) →
    ∃ t, exec (.wr8 id v) s = .next t ∧ Answers (.rd8 id) t t.core (.ok (.byte v)) ∧
      Answers (.rd8 other) t t.core (.ok (.byte x))

/-- R112: SETC changes bit 4 of F to the state and keeps its seven other bits, and GETC then returns the state. -/
def Obligations.FlagIsolation : Prop :=
  ∀ (state : Bool) (s : State), ∃ t, exec (.setc state) s = .next t ∧
    t.core.af.low = (s.core.af.low &&& 0xEF) ||| (if state then 0x10 else 0x00) ∧ t.core.af.low.getLsbD 4 = state ∧
    (∀ k, k ≠ 4 → t.core.af.low.getLsbD k = s.core.af.low.getLsbD k) ∧
    Answers .getc t t.core (.ok (.flag state))

/-- R113: after WR8 F and after WR16 AF, GETC returns bit 4 of the byte written to F. -/
def Obligations.GetcSeesWritesOfTheFlagLane : Prop :=
  ∀ (s : State),
    (∀ v : Byte, ∃ t, exec (.wr8 .f v) s = .next t ∧ t.core.af.low = v ∧
      Answers .getc t t.core (.ok (.flag (v.getLsbD 4)))) ∧
    ∀ v : Word, ∃ t, exec (.wr16 .af v) s = .next t ∧ t.core.af.low = v.extractLsb' 0 8 ∧
      Answers .getc t t.core (.ok (.flag (v.getLsbD 4)))

/-- R114: an accessor other than SETC, WR8 F and WR16 AF leaves the whole flag lane unchanged. -/
def Obligations.NoImplicitFlagUpdates : Prop :=
  ∀ (i : Instr) (s t : State), i.isAccessor = true → writesFlags i = false → exec i s = .next t →
    t.core.af.low = s.core.af.low

/-- R132: the frame of every accessor (RD8, WR8, RD16, WR16, RDPC, RDSP, INCPC, GETC, SETC, RDIME, WRIME, CLKRD,
CLKADD): each lane, PC, SP, the interrupt-enable flag and each counter it does not name are unchanged; so are every
byte of memory, the table, CLOCK_WIDTH and the host's pending actions; one response is recorded. -/
def Obligations.AccessorFrame : Prop :=
  ∀ (i : Instr) (s t : State), i.isAccessor = true → exec i s = .next t →
    (∀ id, mayChangeLane i id = false → lane id t.core = lane id s.core) ∧
    (∀ state, i = .setc state → ∀ k, k ≠ 4 → t.core.af.low.getLsbD k = s.core.af.low.getLsbD k) ∧
    (mayChangePc i = false → t.core.pc = s.core.pc) ∧ (mayChangeSp i = false → t.core.sp = s.core.sp) ∧
    (mayChangeIme i = false → t.core.ime = s.core.ime) ∧
    (∀ sel, mayChangeCounter i sel = false → counter sel t.core = counter sel s.core) ∧
    (∀ a, t.mem.content a = s.mem.content a) ∧ (∀ a, t.mem.peek a = s.mem.peek a) ∧ t.mem.map = s.mem.map ∧ t.mem.device = s.mem.device ∧
    t.table = s.table ∧ t.clockWidth = s.clockWidth ∧ t.inputs = s.inputs ∧ ∃ r, t.responses = s.responses ++ [r]

/-- R30: the interrupt-enable flag has no effect on any accessor but RDIME, and none but WRIME changes it: with the
flag otherwise, every other accessor does the same. -/
def Obligations.ImeChangesNoOtherAccessor : Prop :=
  ∀ (i : Instr) (s t : State) (b : Bool), i.isAccessor = true → i ≠ .rdime → (∀ state, i ≠ .wrime state) →
    exec i s = .next t → exec i (withIme s b) = .next (withIme t b)

/-! ## STEP -/

/-- STEP's word (44 R150; 30 R76). -/
def Obligations.StepWordIsExact : Prop := WordRule 0xD 0xFFFFFF 0xD00000 (fun _ => some .step)

/-- R151, R183: where the fetch at PC fails, STEP fails with the collaborator's payload and nothing changes. -/
def Obligations.FailedFetchIsReported : Prop :=
  ∀ (s : State) (e : MemErr), memRead s.mem s.core.pc = .error e → Fails .step s (.invalidMemoryAccess e)

/-- R153, R182: where the fetched opcode's descriptor is a placeholder, STEP fails with UnimplementedOpcode, the opcode
and the PC of the fetch, and nothing changes. The opcode byte as an instruction of its own, which the first clause
says it of too, is the model's choice (log entry 19). -/
def Obligations.PlaceholderIsUnimplemented : Prop :=
  ∀ (s : State) (opc : Byte), (s.table.descriptor opc).kind = .placeholder →
    Fails (.opcode opc) s (.unimplementedOpcode opc s.core.pc) ∧
    ∀ m, memRead s.mem s.core.pc = .ok (opc, m) → Fails .step s (.unimplementedOpcode opc s.core.pc)

/-- R150, R157: a successful STEP commits the behaviour's register-file state and memory and returns its cost; the
dispatcher writes nothing of its own. -/
def Obligations.StepCommitsTheBehaviour : Prop :=
  ∀ (s : State) (opc : Byte) (fetched m : Mem) (b : Behaviour) (c : CoreState) (dm dt : Nat),
    memRead s.mem s.core.pc = .ok (opc, fetched) → (s.table.descriptor opc).kind = .implemented b →
    runBehaviour s.clockWidth b (s.table.descriptor opc).operands s.core fetched = .done c m dm dt →
    c.clk.m = s.core.clk.m + dm → c.clk.t = s.core.clk.t + dt → ¬Passes s.clockWidth c.clk.m →
    ¬Passes s.clockWidth c.clk.t →
    exec .step s = .next { s with core := c, mem := m, responses := s.responses ++ [.ok (.cost dm dt)] }

/-- R152, R154, R157: a fetched opcode indexes the table directly, and its behaviour's results are committed.
The opcode byte as an instruction of its own is the model's choice (log entry 19). -/
def Obligations.OpcodeCommitsTheBehaviour : Prop :=
  ∀ (s : State) (opc : Byte) (m : Mem) (b : Behaviour) (c : CoreState) (dm dt : Nat),
    (s.table.descriptor opc).kind = .implemented b →
    runBehaviour s.clockWidth b (s.table.descriptor opc).operands s.core s.mem = .done c m dm dt →
    c.clk.m = s.core.clk.m + dm → c.clk.t = s.core.clk.t + dt → ¬Passes s.clockWidth c.clk.m →
    ¬Passes s.clockWidth c.clk.t →
    exec (.opcode opc) s = .next { s with core := c, mem := m, responses := s.responses ++ [.ok (.cost dm dt)] }

/-- R156: a memory error inside the behaviour fails the step with the payload, and every effect is undone. -/
def Obligations.BehaviourMemoryErrorIsUndone : Prop :=
  ∀ (s : State) (opc : Byte) (fetched : Mem) (b : Behaviour) (e : MemErr),
    memRead s.mem s.core.pc = .ok (opc, fetched) → (s.table.descriptor opc).kind = .implemented b →
    runBehaviour s.clockWidth b (s.table.descriptor opc).operands s.core fetched = .memError e →
    Fails .step s (.invalidMemoryAccess e)

/-- R155, R185: a behaviour whose returned clock is not the old clock plus its cost fails the step with
ContractViolation, the opcode and the PC of the fetch, and nothing changes. -/
def Obligations.BrokenClockContractFails : Prop :=
  ∀ (s : State) (opc : Byte) (fetched m : Mem) (b : Behaviour) (c : CoreState) (dm dt : Nat),
    memRead s.mem s.core.pc = .ok (opc, fetched) → (s.table.descriptor opc).kind = .implemented b →
    runBehaviour s.clockWidth b (s.table.descriptor opc).operands s.core fetched = .done c m dm dt →
    c.clk ≠ ⟨s.core.clk.m + dm, s.core.clk.t + dt⟩ → Fails .step s (.contractViolation opc s.core.pc)

/-- R186 with R142: a behaviour that keeps the contract but passes a finite CLOCK_WIDTH, or whose own CLKADD
overflows, fails the step with ClockOverflow, and nothing changes. -/
def Obligations.OverflowingBehaviourFails : Prop :=
  ∀ (s : State) (opc : Byte) (fetched : Mem) (b : Behaviour),
    memRead s.mem s.core.pc = .ok (opc, fetched) → (s.table.descriptor opc).kind = .implemented b →
    (runBehaviour s.clockWidth b (s.table.descriptor opc).operands s.core fetched = .overflow →
      Fails .step s .clockOverflow) ∧
    ∀ (m : Mem) (c : CoreState) (dm dt : Nat),
      runBehaviour s.clockWidth b (s.table.descriptor opc).operands s.core fetched = .done c m dm dt →
      c.clk = ⟨s.core.clk.m + dm, s.core.clk.t + dt⟩ →
      (Passes s.clockWidth c.clk.m ∨ Passes s.clockWidth c.clk.t) → Fails .step s .clockOverflow

/-- A fetch outside MMIO_SET changes nothing, so STEP is exactly the fetched opcode's meaning (44 R150, R151).
The opcode byte as an instruction of its own is the model's choice (log entry 19). -/
def Obligations.StepIsTheFetchedOpcode : Prop :=
  ∀ (s : State) (opc : Byte) (m : Mem), s.mem.isMmio s.core.pc = false →
    memRead s.mem s.core.pc = .ok (opc, m) → exec .step s = exec (.opcode opc) s

/-- R160: a failed STEP, issued again with nothing corrected, fails with the same failure. -/
def Obligations.FailedStepFailsAgain : Prop :=
  ∀ (s t : State) (r : Response), exec .step s = .next t → t.responses = s.responses ++ [r] → Failure r →
    Fails .step t r

/-- A step over the scripted F_NOP of 95_test_vectors.md (V44-1, V44-2, V44-11), from every state with the clock
unbounded and PC outside MMIO_SET: PC moves on by 1 with the 16-bit wrap, the counters by 1 and 4, and nothing else
changes. The script form is the model's choice (log entries 5 and 6). -/
def Obligations.StepOverScriptedNop : Prop :=
  ∀ (s : State) (opc : Byte) (m : Mem), s.clockWidth = none → s.mem.isMmio s.core.pc = false →
    memRead s.mem s.core.pc = .ok (opc, m) → (s.table.descriptor opc).kind = .implemented (.script nopScript) →
    exec .step s = .next { s with
      core := { s.core with
        pc := BitVec.ofNat 16 ((s.core.pc.toNat + 1) % 65536), clk := ⟨s.core.clk.m + 1, s.core.clk.t + 4⟩ }
      responses := s.responses ++ [.ok (.cost 1 4)] }

/-! ## Behaviours -/

/-- R85: a behaviour's accessor commands have the effect on the block, and the response, that the host's have.
A script's way of issuing a command is the model's choice (log entry 5). -/
def Obligations.BehavioursFollowTheSameRules : Prop :=
  ∀ (i : Instr) (w : CommandWord) (s : State), i.isAccessor = true → commandWord? i = some w →
    Answers i s (issueWord s.clockWidth w s.core).core (issueWord s.clockWidth w s.core).response

/-- R85, R184: STEP issued by a behaviour, and any illegal word, changes nothing, gives the behaviour IllegalCommand
with the word (status code 3), and does not end the step.
What a script receives is the model's choice (log entries 6 and 24). -/
def Obligations.NestedStepIsIllegalAndGoesOn : Prop :=
  ∀ (width : Option Nat) (operands : Meta) (next : Script) (env : List Nat) (c : CoreState) (mem : Mem) (w : CommandWord),
    (w = 0xD00000 ∨ Illegal w) →
      issueWord width w c = ⟨c, .illegalCommand w⟩ ∧
      runScript width operands (.command (.lit w.toNat) next) env c mem =
        runScript width operands next (w.toNat :: 3 :: env) c mem

/-- R142: wherever in a behaviour a CLKADD would pass a finite CLOCK_WIDTH, after whatever commands and accesses, the
behaviour ends there in an overflow, whatever would follow; a step whose behaviour ends so fails with ClockOverflow,
and nothing changes. So does a step over F_NOP, whose INCPC comes before its two CLKADDs (V44-15), where one of them
passes. The overflow's place in the order of the checks is the model's inference (log entry 7). -/
def Obligations.BehaviourClkaddOverflowEndsTheStep : Prop :=
  (∀ (width : Option Nat) (operands : Meta) (next : Script) (env : List Nat) (c : CoreState) (mem : Mem)
      (sel : ClockSel) (amount : Word) (w : CommandWord), commandWord? (.clkadd sel amount) = some w →
      Passes width (counter sel c + amount.toNat) →
      runScript width operands (.command (.lit w.toNat) next) env c mem = .overflow) ∧
    (∀ (s : State) (opc : Byte) (fetched : Mem) (body : Script), memRead s.mem s.core.pc = .ok (opc, fetched) →
      (s.table.descriptor opc).kind = .implemented (.script body) →
      runScript s.clockWidth (s.table.descriptor opc).operands body [] s.core fetched = .overflow →
      Fails .step s .clockOverflow) ∧
    ∀ (s : State) (opc : Byte) (fetched : Mem), memRead s.mem s.core.pc = .ok (opc, fetched) →
      (s.table.descriptor opc).kind = .implemented (.script nopScript) →
      (Passes s.clockWidth (s.core.clk.m + 1) ∨ Passes s.clockWidth (s.core.clk.t + 4)) →
      Fails .step s .clockOverflow

/-- R205: inside a behaviour a memory read sees the behaviour's earlier write to the address (outside MMIO_SET), and
a register read sees its earlier register write.
What a script receives is the model's choice (log entry 6). -/
def Obligations.BehaviourReadsSeeItsWrites : Prop :=
  ∀ (width : Option Nat) (operands : Meta) (next : Script) (env : List Nat) (c : CoreState) (mem mem' : Mem)
    (a : Word) (v : Byte),
    (mem.isMmio a = false → memWrite mem a v = .ok mem' →
      runScript width operands (.write (.lit a.toNat) (.lit v.toNat) (.read (.lit a.toNat) next)) env c mem =
        runScript width operands next (v.toNat :: env) c mem') ∧
    ∀ (id : R8Id) (wr rd : CommandWord), commandWord? (.wr8 id v) = some wr → commandWord? (.rd8 id) = some rd →
      runScript width operands (.command (.lit wr.toNat) (.command (.lit rd.toNat) next)) env c mem =
        runScript width operands next (v.toNat :: 0 :: 0 :: 0 :: env) (withLane id v c) mem

/-! ## Memory -/

/-- R54: outside MMIO_SET a read changes nothing, a read sees the last write, and a write changes no other address. -/
def Obligations.OrdinaryMemoryLaws : Prop :=
  ∀ (m m' : Mem) (a : Word) (v : Byte), m.isMmio a = false →
    (memRead m a = .ok (v, m') → m' = m) ∧
    (memWrite m a v = .ok m' → memRead m' a = .ok (v, m')) ∧
    (memWrite m a v = .ok m' → ∀ b, b ≠ a → m.isMmio b = false →
      (memRead m' b).map Prod.fst = (memRead m b).map Prod.fst)

/-- R65: a byte a behaviour wrote is the opcode the next fetch from its address finds; no fence is needed.
The opcode byte as an instruction of its own is the model's choice (log entry 19). -/
def Obligations.FetchSeesEarlierWrite : Prop :=
  ∀ (s : State) (m : Mem) (a : Word) (v : Byte), s.mem.isMmio a = false → memWrite s.mem a v = .ok m →
    exec .step { s with mem := m, core := { s.core with pc := a } } =
      exec (.opcode v) { s with mem := m, core := { s.core with pc := a } }

/-- Every memory access, also one at an address in MMIO_SET, keeps the memory's canonical form.
The form is the model's, with 0x00 for an unlisted byte (log entry 10). -/
def Obligations.AccessesKeepCanonicalForm : Prop :=
  ∀ (m m' : Mem) (a : Word) (v : Byte), m.wf = true →
    (memRead m a = .ok (v, m') → m'.wf = true) ∧ (memWrite m a v = .ok m' → m'.wf = true)

/-! ## The whole machine -/

/-- Every instruction completes, in every state, and returns one response (30_encoding.md R80). -/
def Obligations.EveryCommandReturnsOneResponse : Prop :=
  ∀ (i : Instr) (s : State), ∃ t r, exec i s = .next t ∧ t.responses = s.responses ++ [r] ∧ t.inputs = s.inputs

/-- R181: whatever the instruction, and whatever the command word the host issues, if the response is a failure, block
and memory are exactly as before, and so is everything else but the response recorded and the word taken off the queue. -/
def Obligations.FailureChangesNothing : Prop :=
  ∀ (s t : State) (r : Response), t.responses = s.responses ++ [r] → Failure r →
    (∀ i : Instr, exec i s = .next t → t = { s with responses := s.responses ++ [r] }) ∧
    ∀ (w : CommandWord) (rest : List HostInput), step { s with inputs := .command w :: rest } = .next t →
      t = { s with inputs := rest, responses := s.responses ++ [r] }

/-- R142, R186: with CLOCK_WIDTH unbounded no instruction is answered ClockOverflow, whatever the table. -/
def Obligations.UnboundedClockNeverOverflows : Prop :=
  ∀ (i : Instr) (s t : State), s.clockWidth = none → exec i s = .next t →
    t.responses ≠ s.responses ++ [.clockOverflow]

/-- The table is never rebuilt, nor CLOCK_WIDTH or the memory map changed, by any step in the life of a processor
(10_state.md R35; 44_dispatcher.md R162).
That map and CLOCK_WIDTH are constant data of the state is the model's choice (log entries 8 and 15). -/
def Obligations.ConfigurationIsFixed : Prop :=
  ∀ (s t : State), s.processorLives = true → step s = .next t →
    t.table = s.table ∧ t.clockWidth = s.clockWidth ∧ t.mem.map = s.mem.map

/-- The invariant holds at reset.
Reset's memory is the model's choice (log entries 9 and 10). -/
def Obligations.ResetMeetsTheInvariant : Prop := State.reset.Inv

/-- Every step keeps the invariant: memory stays in canonical form and both counters stay within CLOCK_WIDTH, whatever
the instruction table, its external behaviours and the memory-mapped devices do.
Memory's canonical form is the model's (log entry 10). -/
def Obligations.StepKeepsTheInvariant : Prop := ∀ s t : State, s.Inv → step s = .next t → t.Inv

/-- R143: over any number of steps in the life of one processor no counter decreases, whatever the table does. -/
def Obligations.ClockIsMonotone : Prop :=
  ∀ (n : Nat) (s t : State), noConstruction s → Host.Core.run Sys2Proof.core n s = .next t →
    s.core.clk.m ≤ t.core.clk.m ∧ s.core.clk.t ≤ t.core.clk.t

/-- A run never stops where the host constructs only with complete tables: no command, no failure and no behaviour
ends it (44_dispatcher.md R167; 60_exceptions.md R192).
The queue of host actions is the model's choice (log entry 1). -/
def Obligations.RunsNeverStop : Prop :=
  ∀ (n : Nat) (s : State), tablesComplete s.inputs = true → ∃ t, Host.Core.run Sys2Proof.core n s = .next t

/-- The host's command words are all served, each with one response: after as many steps as words, nothing
is pending and the response list has grown by exactly that many (30_encoding.md R80, R84; 44_dispatcher.md R167). -/
def Obligations.EveryIssuedWordIsAnswered : Prop :=
  ∀ (ws : List CommandWord) (s : State), ∃ t rs,
    Host.Core.run Sys2Proof.core ws.length (s.withCommands ws) = .next t ∧ t.inputs = [] ∧
      t.responses = s.responses ++ rs ∧ rs.length = ws.length
end

