-- ==== Sys2Proof/Laws/Decode.lean ====
section
/-! SUPPORT. The fields of a word and the word of fields are inverse (30_encoding.md R73); the identifier codes are
inverse to their names (R71, R72). -/

namespace Sys2Proof

theorem append_toNat {m n : Nat} (x : BitVec m) (y : BitVec n) : (x ++ y).toNat = x.toNat * 2 ^ n + y.toNat := by
  rw [BitVec.toNat_append, Nat.shiftLeft_eq, Nat.mul_comm, ← Nat.two_pow_add_eq_or_of_lt y.isLt]

/-- `word = op·2^20 + sel·2^17 + b·2^16 + imm` (R73). -/
theorem wordOf_toNat (f : Fields) :
    (wordOf f).toNat = f.op.toNat * 2 ^ 20 + f.sel.toNat * 2 ^ 17 + f.b.toNat * 2 ^ 16 + f.imm.toNat := by
  simp only [wordOf, append_toNat]
  omega

theorem fieldsOf_toNat (w : CommandWord) :
    (fieldsOf w).op.toNat = w.toNat / 2 ^ 20 ∧ (fieldsOf w).sel.toNat = w.toNat / 2 ^ 17 % 8 ∧
      (fieldsOf w).b.toNat = w.toNat / 2 ^ 16 % 2 ∧ (fieldsOf w).imm.toNat = w.toNat % 2 ^ 16 := by
  have := w.isLt
  refine ⟨?_, ?_, ?_, ?_⟩ <;> simp only [fieldsOf, BitVec.extractLsb'_toNat, Nat.shiftRight_eq_div_pow] <;> omega

theorem wordOf_fieldsOf (w : CommandWord) : wordOf (fieldsOf w) = w := by
  obtain ⟨h1, h2, h3, h4⟩ := fieldsOf_toNat w
  apply BitVec.eq_of_toNat_eq
  rw [wordOf_toNat, h1, h2, h3, h4]
  omega

theorem Fields.ext_toNat {f g : Fields} (h1 : f.op.toNat = g.op.toNat) (h2 : f.sel.toNat = g.sel.toNat)
    (h3 : f.b.toNat = g.b.toNat) (h4 : f.imm.toNat = g.imm.toNat) : f = g := by
  cases f
  cases g
  simp only [Fields.mk.injEq]
  exact ⟨BitVec.eq_of_toNat_eq h1, BitVec.eq_of_toNat_eq h2, BitVec.eq_of_toNat_eq h3, BitVec.eq_of_toNat_eq h4⟩

theorem fieldsOf_wordOf (f : Fields) : fieldsOf (wordOf f) = f := by
  obtain ⟨h1, h2, h3, h4⟩ := fieldsOf_toNat (wordOf f)
  have h := wordOf_toNat f
  have := f.op.isLt
  have := f.sel.isLt
  have := f.b.isLt
  have := f.imm.isLt
  apply Fields.ext_toNat <;> omega

/-- The fields determine the word. -/
theorem fieldsOf_injective {w v : CommandWord} (h : fieldsOf w = fieldsOf v) : w = v := by
  rw [← wordOf_fieldsOf w, h, wordOf_fieldsOf]

/-- Masking a word masks its fields. -/
theorem fieldsOf_and (w v : CommandWord) :
    fieldsOf (w &&& v) = ⟨(fieldsOf w).op &&& (fieldsOf v).op, (fieldsOf w).sel &&& (fieldsOf v).sel,
      (fieldsOf w).b &&& (fieldsOf v).b, (fieldsOf w).imm &&& (fieldsOf v).imm⟩ := by
  simp only [fieldsOf, BitVec.extractLsb'_and]

/-- A mask and match of 30_encoding.md R76, field by field. -/
theorem mask_iff (w mask mtch : CommandWord) :
    w &&& mask = mtch ↔
      (fieldsOf w).op &&& (fieldsOf mask).op = (fieldsOf mtch).op ∧
        (fieldsOf w).sel &&& (fieldsOf mask).sel = (fieldsOf mtch).sel ∧
        (fieldsOf w).b &&& (fieldsOf mask).b = (fieldsOf mtch).b ∧
        (fieldsOf w).imm &&& (fieldsOf mask).imm = (fieldsOf mtch).imm := by
  constructor
  · rintro rfl
    rw [fieldsOf_and]
    exact ⟨rfl, rfl, rfl, rfl⟩
  · rintro ⟨h1, h2, h3, h4⟩
    apply fieldsOf_injective
    rw [fieldsOf_and, h1, h2, h3, h4]

@[simp] theorem R8Id.ofCode_code (id : R8Id) : R8Id.ofCode id.code = id := by cases id <;> rfl
@[simp] theorem R16Id.ofCode_code (id : R16Id) : R16Id.ofCode? id.code = some id := by cases id <;> rfl
@[simp] theorem ClockSel.ofCode_code (sel : ClockSel) : ClockSel.ofCode sel.code = sel := by cases sel <;> rfl

theorem R8Id.code_ofCode : ∀ k : BitVec 3, (R8Id.ofCode k).code = k := by decide

theorem R16Id.code_ofCode : ∀ k : BitVec 3, ∀ id, R16Id.ofCode? k = some id → id.code = k := by decide

theorem ClockSel.code_ofCode : ∀ k : BitVec 3, k.extractLsb' 1 2 = 0 → (ClockSel.ofCode k).code = k := by decide

/-- A decoded command is one of the 14: never the opcode byte. -/
theorem decodeCommand_isCommand {w : CommandWord} {i : Instr} (h : decodeCommand w = .ok i) : i.isCommand = true := by
  unfold decodeCommand at h
  split at h
  · cases h
  · unfold assemble at h
    split at h <;> first | (cases h; rfl) | (split at h <;> cases h; rfl) | cases h

/-- Decoding depends on the fields alone: a word is decoded through its fields. -/
theorem decodeCommand_wordOf (f : Fields) :
    decodeCommand (wordOf f) = match f.illegal? with | some r => .error r | none => assemble f := by
  cases h : f.illegal? <;> simp [decodeCommand, fieldsOf_wordOf, h]

/-- A word is decoded to the command its fields assemble, exactly where they are legal. -/
theorem decodeCommand_eq_ok_iff (w : CommandWord) (i : Instr) :
    decodeCommand w = .ok i ↔ (fieldsOf w).illegal? = none ∧ assemble (fieldsOf w) = .ok i := by
  unfold decodeCommand
  cases (fieldsOf w).illegal? <;> simp

end Sys2Proof
end

