-- ==== Sys2Proof/Laws/State.lean ====
section
/-! SUPPORT. One lemma per field per update, each true by rfl, so that no proof unfolds a record update. -/

namespace Sys2Proof.Machine

open Sys2Proof

section respond
variable (s : State) (r : Response)

@[simp] theorem State.respond_core : (s.respond r).core = s.core := rfl
@[simp] theorem State.respond_mem : (s.respond r).mem = s.mem := rfl
@[simp] theorem State.respond_table : (s.respond r).table = s.table := rfl
@[simp] theorem State.respond_clockWidth : (s.respond r).clockWidth = s.clockWidth := rfl
@[simp] theorem State.respond_inputs : (s.respond r).inputs = s.inputs := rfl
@[simp] theorem State.respond_responses : (s.respond r).responses = s.responses ++ [r] := rfl

@[simp] theorem State.raise_core : (s.raise r).core = s.core := rfl
@[simp] theorem State.raise_mem : (s.raise r).mem = s.mem := rfl
@[simp] theorem State.raise_table : (s.raise r).table = s.table := rfl
@[simp] theorem State.raise_clockWidth : (s.raise r).clockWidth = s.clockWidth := rfl
@[simp] theorem State.raise_inputs : (s.raise r).inputs = s.inputs := rfl
@[simp] theorem State.raise_responses : (s.raise r).responses = s.responses ++ [r] := rfl

end respond

section finish
variable (s : State) (r : CoreReply)

@[simp] theorem State.finish_core : (s.finish r).core = r.core := rfl
@[simp] theorem State.finish_mem : (s.finish r).mem = s.mem := rfl
@[simp] theorem State.finish_table : (s.finish r).table = s.table := rfl
@[simp] theorem State.finish_clockWidth : (s.finish r).clockWidth = s.clockWidth := rfl
@[simp] theorem State.finish_inputs : (s.finish r).inputs = s.inputs := rfl
@[simp] theorem State.finish_responses : (s.finish r).responses = s.responses ++ [r.response] := rfl

end finish

section reply
variable (c : CoreState) (v : Value)

@[simp] theorem CoreState.answer_core : (c.answer v).core = c := rfl
@[simp] theorem CoreState.answer_response : (c.answer v).response = .ok v := rfl
@[simp] theorem CoreState.done_core : c.done.core = c := rfl
@[simp] theorem CoreState.done_response : c.done.response = .ok .none := rfl

end reply

section setMemory
variable (s : State) (e : MemEffect)

@[simp] theorem setMemory_core : (setMemory s e).core = s.core := rfl
@[simp] theorem setMemory_mem : (setMemory s e).mem = s.mem.applyEffect e := rfl
@[simp] theorem setMemory_table : (setMemory s e).table = s.table := rfl
@[simp] theorem setMemory_clockWidth : (setMemory s e).clockWidth = s.clockWidth := rfl
@[simp] theorem setMemory_inputs : (setMemory s e).inputs = s.inputs := rfl
@[simp] theorem setMemory_responses : (setMemory s e).responses = s.responses := rfl

end setMemory

section poke
variable (mem : Mem) (a : Word) (v : Byte) (e : MemErr)

@[simp] theorem Mem.poke_cells : (mem.poke a v).cells = cellSet mem.cells a.toNat v := rfl
@[simp] theorem Mem.poke_unreadable : (mem.poke a v).unreadable = entryErase mem.unreadable a.toNat := rfl
@[simp] theorem Mem.poke_map : (mem.poke a v).map = mem.map := rfl
@[simp] theorem Mem.poke_device : (mem.poke a v).device = mem.device := rfl
@[simp] theorem Mem.poke_kindAt (b : Word) : (mem.poke a v).kindAt b = mem.kindAt b := rfl

@[simp] theorem Mem.block_cells : (mem.block a e).cells = entryErase mem.cells a.toNat := rfl
@[simp] theorem Mem.block_unreadable : (mem.block a e).unreadable = entryInsert mem.unreadable a.toNat e := rfl
@[simp] theorem Mem.block_map : (mem.block a e).map = mem.map := rfl
@[simp] theorem Mem.block_device : (mem.block a e).device = mem.device := rfl

end poke

section setPair
variable (c : CoreState) (p q : PairId) (v : RegPair)

@[simp] theorem CoreState.setPair_pc : (c.setPair p v).pc = c.pc := by cases p <;> rfl
@[simp] theorem CoreState.setPair_sp : (c.setPair p v).sp = c.sp := by cases p <;> rfl
@[simp] theorem CoreState.setPair_ime : (c.setPair p v).ime = c.ime := by cases p <;> rfl
@[simp] theorem CoreState.setPair_clk : (c.setPair p v).clk = c.clk := by cases p <;> rfl
@[simp] theorem CoreState.pair_setPair : (c.setPair p v).pair p = v := by cases p <;> rfl

theorem CoreState.pair_setPair_of_ne (h : q ≠ p) : (c.setPair p v).pair q = c.pair q := by
  cases p <;> cases q <;> first | rfl | exact absurd rfl h

end setPair

section clock
variable (k : Clock) (n : Nat)

@[simp] theorem Clock.add_m_m : (k.add .m n).m = k.m + n := rfl
@[simp] theorem Clock.add_m_t : (k.add .m n).t = k.t := rfl
@[simp] theorem Clock.add_t_m : (k.add .t n).m = k.m := rfl
@[simp] theorem Clock.add_t_t : (k.add .t n).t = k.t + n := rfl

end clock

end Sys2Proof.Machine
end

