-- ==== Sys2Proof/Laws/Memory.lean ====
section
/-! SUPPORT. Memory: read after write, everything else unchanged, the canonical form, and what an access can answer
(20_memory.md R51 to R54). -/

namespace Sys2Proof.Machine

open Sys2Proof

/-! ## Entries by address -/

section entries
variable {α : Type}

theorem entryGet?_erase_same (l : List (Nat × α)) (a : Nat) : entryGet? (entryErase l a) a = none := by
  induction l with
  | nil => rfl
  | cons y rest ih =>
    obtain ⟨b, y⟩ := y
    unfold entryErase
    split
    · exact ih
    · simp only [entryGet?, *, if_false]

theorem entryGet?_erase_ne (l : List (Nat × α)) {a b : Nat} (h : b ≠ a) :
    entryGet? (entryErase l a) b = entryGet? l b := by
  induction l with
  | nil => rfl
  | cons y rest ih =>
    obtain ⟨k, y⟩ := y
    unfold entryErase
    split
    · next hk => rw [ih, entryGet?, if_neg (hk ▸ h)]
    · simp only [entryGet?, ih]

theorem entryGet?_insert_same (l : List (Nat × α)) (a : Nat) (x : α) : entryGet? (entryInsert l a x) a = some x := by
  induction l with
  | nil => simp [entryInsert, entryGet?]
  | cons y rest ih =>
    obtain ⟨k, y⟩ := y
    unfold entryInsert
    split
    · simp [entryGet?]
    · split
      · simp [entryGet?]
      · simp [entryGet?, *]

theorem entryGet?_insert_ne (l : List (Nat × α)) {a b : Nat} (x : α) (h : b ≠ a) :
    entryGet? (entryInsert l a x) b = entryGet? l b := by
  induction l with
  | nil => simp [entryInsert, entryGet?, h]
  | cons y rest ih =>
    obtain ⟨k, y⟩ := y
    unfold entryInsert
    split
    · simp [entryGet?, h]
    · split
      · next hk => simp [entryGet?, h, ← hk]
      · simp [entryGet?, ih]

/-- What remains after forgetting an address was there, at another address. -/
theorem mem_of_mem_erase {l : List (Nat × α)} {a : Nat} {x : Nat × α} (h : x ∈ entryErase l a) : x ∈ l ∧ x.1 ≠ a := by
  induction l with
  | nil => cases h
  | cons y rest ih =>
    obtain ⟨b, y⟩ := y
    unfold entryErase at h
    split at h
    · exact ⟨List.mem_cons_of_mem _ (ih h).1, (ih h).2⟩
    · next hb =>
      obtain rfl | h := List.mem_cons.1 h
      · exact ⟨List.mem_cons_self .., Ne.symm hb⟩
      · exact ⟨List.mem_cons_of_mem _ (ih h).1, (ih h).2⟩

/-- What is listed after listing an entry is that entry or was there. -/
theorem mem_of_mem_insert {l : List (Nat × α)} {a : Nat} {v : α} {x : Nat × α} (h : x ∈ entryInsert l a v) :
    x = (a, v) ∨ x ∈ l := by
  induction l with
  | nil => exact .inl (by simpa [entryInsert] using h)
  | cons y rest ih =>
    obtain ⟨b, y⟩ := y
    unfold entryInsert at h
    split at h
    · exact List.mem_cons.1 h
    · split at h
      · exact (List.mem_cons.1 h).imp_right (List.mem_cons_of_mem _)
      · obtain rfl | h := List.mem_cons.1 h
        · exact .inr (List.mem_cons_self ..)
        · exact (ih h).imp_right (List.mem_cons_of_mem _)

theorem risingFrom_cons (low a : Nat) (x : α) (rest : List (Nat × α)) :
    risingFrom low ((a, x) :: rest) = true ↔ low ≤ a ∧ a < 65536 ∧ risingFrom (a + 1) rest = true := by
  simp [risingFrom, and_assoc]

theorem risingFrom_mono {low low' : Nat} (h : low' ≤ low) :
    ∀ {l : List (Nat × α)}, risingFrom low l = true → risingFrom low' l = true
  | [], _ => rfl
  | (a, x) :: rest, hl => by
    rw [risingFrom_cons] at hl ⊢
    exact ⟨h.trans hl.1, hl.2⟩

theorem risingFrom_erase (a : Nat) :
    ∀ {low : Nat} {l : List (Nat × α)}, risingFrom low l = true → risingFrom low (entryErase l a) = true
  | _, [], _ => rfl
  | low, (b, y) :: rest, hl => by
    rw [risingFrom_cons] at hl
    unfold entryErase
    split
    · exact risingFrom_mono (by omega) (risingFrom_erase a hl.2.2)
    · rw [risingFrom_cons]
      exact ⟨hl.1, hl.2.1, risingFrom_erase a hl.2.2⟩

theorem risingFrom_insert {a : Nat} (x : α) (ha : a < 65536) :
    ∀ {low : Nat} {l : List (Nat × α)}, low ≤ a → risingFrom low l = true →
      risingFrom low (entryInsert l a x) = true
  | low, [], hlow, _ => by
    rw [entryInsert, risingFrom_cons]
    exact ⟨hlow, ha, rfl⟩
  | low, (b, y) :: rest, hlow, hl => by
    rw [risingFrom_cons] at hl
    unfold entryInsert
    split
    · rw [risingFrom_cons, risingFrom_cons]
      exact ⟨hlow, ha, by omega, hl.2⟩
    · split
      · next hb =>
        rw [risingFrom_cons, hb]
        exact ⟨by omega, hl.2.1, hl.2.2⟩
      · rw [risingFrom_cons]
        exact ⟨hl.1, hl.2.1, risingFrom_insert x ha (by omega) hl.2.2⟩

end entries

/-! ## Bytes and contents -/

theorem cellGet_set_same (l : List Host.Cell) (a : Nat) (v : Byte) : cellGet (cellSet l a v) a = v := by
  unfold cellSet cellGet
  split
  · next h => rw [entryGet?_erase_same, h, Option.getD_none]
  · rw [entryGet?_insert_same, Option.getD_some]

theorem entryGet?_set_ne (l : List Host.Cell) {a b : Nat} (v : Byte) (h : b ≠ a) :
    entryGet? (cellSet l a v) b = entryGet? l b := by
  unfold cellSet
  split
  · exact entryGet?_erase_ne l h
  · exact entryGet?_insert_ne l v h

/-- What is listed after a byte was set is that byte, not the unlisted one, or was there. -/
theorem mem_of_mem_set {l : List Host.Cell} {a : Nat} {v : Byte} {x : Host.Cell} (h : x ∈ cellSet l a v) :
    (x = (a, v) ∧ v ≠ Config.unwrittenByte) ∨ x ∈ l := by
  unfold cellSet at h
  split at h
  · exact .inr (mem_of_mem_erase h).1
  · exact (mem_of_mem_insert h).imp_left fun hx => ⟨hx, ‹_›⟩

@[simp] theorem Mem.peek_poke_same (mem : Mem) (a : Word) (v : Byte) : (mem.poke a v).peek a = v :=
  cellGet_set_same _ _ _

theorem Word.toNat_ne {a b : Word} (h : b ≠ a) : b.toNat ≠ a.toNat := fun e => h (BitVec.eq_of_toNat_eq e)

theorem Mem.peek_poke_ne (mem : Mem) {a b : Word} (v : Byte) (h : b ≠ a) : (mem.poke a v).peek b = mem.peek b :=
  congrArg (Option.getD · _) (entryGet?_set_ne _ _ (Word.toNat_ne h))

@[simp] theorem Mem.content_poke_same (mem : Mem) (a : Word) (v : Byte) : (mem.poke a v).content a = .ok v := by
  simp [Mem.content, entryGet?_erase_same]

theorem Mem.content_poke_ne (mem : Mem) {a b : Word} (v : Byte) (h : b ≠ a) :
    (mem.poke a v).content b = mem.content b := by
  simp [Mem.content, entryGet?_erase_ne _ (Word.toNat_ne h), Mem.peek_poke_ne _ _ h]

@[simp] theorem Mem.content_block_same (mem : Mem) (a : Word) (e : MemErr) : (mem.block a e).content a = .error e := by
  simp [Mem.content, entryGet?_insert_same]

theorem Mem.content_block_ne (mem : Mem) {a b : Word} (e : MemErr) (h : b ≠ a) :
    (mem.block a e).content b = mem.content b := by
  simp [Mem.content, Mem.peek, cellGet, entryGet?_insert_ne _ _ (Word.toNat_ne h), entryGet?_erase_ne _ (Word.toNat_ne h)]

/-! ## The canonical form -/

/-- The canonical form, in words. -/
theorem Mem.wf_iff (mem : Mem) : mem.wf = true ↔
    risingFrom 0 mem.cells = true ∧ (∀ x ∈ mem.cells, x.2 ≠ Config.unwrittenByte) ∧
      risingFrom 0 mem.unreadable = true ∧ ∀ x ∈ mem.unreadable, entryGet? mem.cells x.1 = none := by
  simp [Mem.wf, and_assoc]

theorem Mem.wf_poke {mem : Mem} (h : mem.wf = true) (a : Word) (v : Byte) : (mem.poke a v).wf = true := by
  rw [Mem.wf_iff] at h ⊢
  refine ⟨?_, fun x hx => ?_, risingFrom_erase _ h.2.2.1, fun x hx => ?_⟩
  · rw [Mem.poke_cells, cellSet]
    split
    · exact risingFrom_erase _ h.1
    · exact risingFrom_insert v a.isLt (Nat.zero_le _) h.1
  · obtain ⟨rfl, hv⟩ | hx := mem_of_mem_set hx
    · exact hv
    · exact h.2.1 x hx
  · obtain ⟨hx, hne⟩ := mem_of_mem_erase hx
    rw [Mem.poke_cells, entryGet?_set_ne _ _ hne]
    exact h.2.2.2 x hx

theorem Mem.wf_block {mem : Mem} (h : mem.wf = true) (a : Word) (e : MemErr) : (mem.block a e).wf = true := by
  rw [Mem.wf_iff] at h ⊢
  refine ⟨risingFrom_erase _ h.1, fun x hx => h.2.1 x (mem_of_mem_erase hx).1,
    risingFrom_insert e a.isLt (Nat.zero_le _) h.2.2.1, fun x hx => ?_⟩
  rw [Mem.block_cells]
  obtain hx | hx := mem_of_mem_insert hx
  · rw [hx]
    exact entryGet?_erase_same _ _
  · by_cases hne : x.1 = a.toNat
    · rw [hne]
      exact entryGet?_erase_same _ _
    · rw [entryGet?_erase_ne _ hne]
      exact h.2.2.2 x hx

/-! ## A change of the memory as a whole -/

theorem Mem.wf_pokes : ∀ (l : List (Word × Byte)) {mem : Mem}, mem.wf = true → (mem.pokes l).wf = true
  | [], _, h => h
  | (a, v) :: rest, _, h => Mem.wf_pokes rest (Mem.wf_poke h a v)

theorem Mem.wf_blocks : ∀ (l : List (Word × MemErr)) {mem : Mem}, mem.wf = true → (mem.blocks l).wf = true
  | [], _, h => h
  | (a, e) :: rest, _, h => Mem.wf_blocks rest (Mem.wf_block h a e)

theorem Mem.wf_applyEffect {mem : Mem} (h : mem.wf = true) (e : MemEffect) : (mem.applyEffect e).wf = true :=
  Mem.wf_blocks e.unreadable (Mem.wf_pokes e.pokes h)

theorem Mem.pokes_map : ∀ (l : List (Word × Byte)) (mem : Mem), (mem.pokes l).map = mem.map
  | [], _ => rfl
  | (a, v) :: rest, mem => (Mem.pokes_map rest (mem.poke a v)).trans rfl

theorem Mem.blocks_map : ∀ (l : List (Word × MemErr)) (mem : Mem), (mem.blocks l).map = mem.map
  | [], _ => rfl
  | (a, e) :: rest, mem => (Mem.blocks_map rest (mem.block a e)).trans rfl

@[simp] theorem Mem.applyEffect_map (mem : Mem) (e : MemEffect) : (mem.applyEffect e).map = mem.map :=
  (Mem.blocks_map e.unreadable _).trans (Mem.pokes_map e.pokes mem)

@[simp] theorem Mem.applyEffect_device (mem : Mem) (e : MemEffect) : (mem.applyEffect e).device = e.device := rfl

/-- The device state plays no part in a content. -/
theorem Mem.applyEffect_content (mem : Mem) (e : MemEffect) (a : Word) :
    (mem.applyEffect e).content a = ((mem.pokes e.pokes).blocks e.unreadable).content a := rfl

/-- Bytes set at other addresses leave a content as it was. -/
theorem Mem.content_pokes_of_ne {a : Word} :
    ∀ (l : List (Word × Byte)) (mem : Mem), (∀ p ∈ l, p.1 ≠ a) → (mem.pokes l).content a = mem.content a
  | [], _, _ => rfl
  | (b, v) :: rest, mem, h => by
    rw [Mem.pokes, Mem.content_pokes_of_ne rest _ fun p hp => h p (List.mem_cons_of_mem _ hp)]
    exact Mem.content_poke_ne _ _ (h (b, v) (List.mem_cons_self ..)).symm

/-- The last byte set at an address is its content. -/
theorem Mem.content_pokes_last {a : Word} {v : Byte} {post : List (Word × Byte)} (h : ∀ p ∈ post, p.1 ≠ a) :
    ∀ (pre : List (Word × Byte)) (mem : Mem), (mem.pokes (pre ++ (a, v) :: post)).content a = .ok v
  | [], _ => (Mem.content_pokes_of_ne post _ h).trans (Mem.content_poke_same ..)
  | (_, _) :: pre, _ => Mem.content_pokes_last h pre _

/-- Other addresses made unreadable leave a content as it was. -/
theorem Mem.content_blocks_of_ne {a : Word} :
    ∀ (l : List (Word × MemErr)) (mem : Mem), (∀ p ∈ l, p.1 ≠ a) → (mem.blocks l).content a = mem.content a
  | [], _, _ => rfl
  | (b, e) :: rest, mem, h => by
    rw [Mem.blocks, Mem.content_blocks_of_ne rest _ fun p hp => h p (List.mem_cons_of_mem _ hp)]
    exact Mem.content_block_ne _ _ (h (b, e) (List.mem_cons_self ..)).symm

/-- An address made unreadable fails with the last payload given. -/
theorem Mem.content_blocks_last {a : Word} {e : MemErr} {post : List (Word × MemErr)} (h : ∀ p ∈ post, p.1 ≠ a) :
    ∀ (pre : List (Word × MemErr)) (mem : Mem), (mem.blocks (pre ++ (a, e) :: post)).content a = .error e
  | [], _ => (Mem.content_blocks_of_ne post _ h).trans (Mem.content_block_same ..)
  | (_, _) :: pre, _ => Mem.content_blocks_last h pre _

/-! ## Accesses -/

/-- What a read outside MMIO_SET that succeeds answers: the content and the same memory. -/
theorem plainRead_ok {mem mem' : Mem} {a : Word} {v : Byte} :
    plainRead mem a = .ok (v, mem') ↔ mem.content a = .ok v ∧ mem' = mem := by
  unfold plainRead
  cases mem.content a <;> simp [Except.map, eq_comm]

/-- What a read that succeeds answers: the content and the same memory, or, at a memory-mapped address, what the
collaborator answers. -/
theorem memRead_ok {mem mem' : Mem} {a : Word} {v : Byte} (h : memRead mem a = .ok (v, mem')) :
    (mem.isMmio a = false ∧ mem.content a = .ok v ∧ mem' = mem) ∨
      (mem.isMmio a = true ∧ ∃ effect, Config.mmioRead mem a = .ok (v, effect) ∧ mem' = mem.applyEffect effect) := by
  unfold memRead at h
  cases hk : mem.kindAt a with
  | ordinary => exact .inl ⟨by simp [Mem.isMmio, hk], plainRead_ok.1 (by simpa only [hk] using h)⟩
  | readOnly e => exact .inl ⟨by simp [Mem.isMmio, hk], plainRead_ok.1 (by simpa only [hk] using h)⟩
  | guarded => exact .inl ⟨by simp [Mem.isMmio, hk], plainRead_ok.1 (by simpa only [hk] using h)⟩
  | faulting e e' => simp_all
  | mmio =>
    rw [hk] at h
    cases hr : Config.mmioRead mem a with
    | error e => simp [hr] at h
    | ok p =>
      simp only [hr, Except.ok.injEq, Prod.mk.injEq] at h
      exact .inr ⟨by simp [Mem.isMmio, hk], p.2, by rw [← h.1], h.2.symm⟩

/-- What a write that succeeds answers: the memory with that byte set, at an address whose reads give the content; or,
at a memory-mapped address, what the collaborator answers. -/
theorem memWrite_ok {mem mem' : Mem} {a : Word} {v : Byte} (h : memWrite mem a v = .ok mem') :
    ((mem.kindAt a = .ordinary ∨ mem.kindAt a = .guarded) ∧ mem' = mem.poke a v) ∨
      (mem.isMmio a = true ∧ ∃ effect, Config.mmioWrite mem a v = .ok effect ∧ mem' = mem.applyEffect effect) := by
  unfold memWrite at h
  cases hk : mem.kindAt a with
  | ordinary => simp_all
  | readOnly e => simp_all
  | faulting e e' => simp_all
  | guarded =>
    rw [hk] at h
    cases hw : Config.writeFault mem a v with
    | some e => simp [hw] at h
    | none =>
      simp only [hw, Except.ok.injEq] at h
      exact .inl ⟨.inr rfl, h.symm⟩
  | mmio =>
    rw [hk] at h
    cases hw : Config.mmioWrite mem a v with
    | error e => simp [hw] at h
    | ok effect =>
      simp only [hw, Except.ok.injEq] at h
      exact .inr ⟨by simp [Mem.isMmio, hk], effect, rfl, h.symm⟩

theorem memRead_wf {mem mem' : Mem} {a : Word} {v : Byte} (h : memRead mem a = .ok (v, mem')) (hw : mem.wf = true) :
    mem'.wf = true := by
  obtain ⟨-, -, rfl⟩ | ⟨-, e, -, rfl⟩ := memRead_ok h
  · exact hw
  · exact Mem.wf_applyEffect hw e

theorem memWrite_wf {mem mem' : Mem} {a : Word} {v : Byte} (h : memWrite mem a v = .ok mem') (hw : mem.wf = true) :
    mem'.wf = true := by
  obtain ⟨-, rfl⟩ | ⟨-, e, -, rfl⟩ := memWrite_ok h
  · exact Mem.wf_poke hw a v
  · exact Mem.wf_applyEffect hw e

theorem memRead_map {mem mem' : Mem} {a : Word} {v : Byte} (h : memRead mem a = .ok (v, mem')) :
    mem'.map = mem.map := by
  obtain ⟨-, -, rfl⟩ | ⟨-, e, -, rfl⟩ := memRead_ok h
  · rfl
  · exact Mem.applyEffect_map mem e

theorem memWrite_map {mem mem' : Mem} {a : Word} {v : Byte} (h : memWrite mem a v = .ok mem') :
    mem'.map = mem.map := by
  obtain ⟨-, rfl⟩ | ⟨-, e, -, rfl⟩ := memWrite_ok h
  · rfl
  · exact Mem.applyEffect_map mem e

/-- A read at an address whose reads give the content. -/
theorem memRead_of_content {mem : Mem} {a : Word} {v : Byte} (h : mem.kindAt a = .ordinary ∨ mem.kindAt a = .guarded)
    (hc : mem.content a = .ok v) : memRead mem a = .ok (v, mem) := by
  obtain h | h := h <;> simp only [memRead, h] <;> exact plainRead_ok.2 ⟨hc, rfl⟩

/-- A read sees the last write, outside MMIO_SET (R54). -/
theorem memRead_of_memWrite {mem mem' : Mem} {a : Word} {v : Byte} (hm : mem.isMmio a = false)
    (h : memWrite mem a v = .ok mem') : memRead mem' a = .ok (v, mem') := by
  obtain ⟨hk, rfl⟩ | ⟨hi, -⟩ := memWrite_ok h
  · exact memRead_of_content hk (Mem.content_poke_same ..)
  · exact absurd (hi.symm.trans hm) (by decide)

/-- A write outside MMIO_SET changes nothing that a read at another such address answers (R54). -/
theorem memRead_of_memWrite_ne {mem mem' : Mem} {a b : Word} {v : Byte} (hm : mem.isMmio a = false)
    (h : memWrite mem a v = .ok mem') (hb : b ≠ a) (hmb : mem.isMmio b = false) :
    (memRead mem' b).map Prod.fst = (memRead mem b).map Prod.fst := by
  obtain ⟨-, rfl⟩ | ⟨hi, -⟩ := memWrite_ok h
  · have key : (plainRead (mem.poke a v) b).map Prod.fst = (plainRead mem b).map Prod.fst := by
      unfold plainRead
      rw [Mem.content_poke_ne _ _ hb]
      cases mem.content b <;> rfl
    unfold memRead
    rw [Mem.poke_kindAt]
    cases hk : mem.kindAt b with
    | mmio => simp [Mem.isMmio, hk] at hmb
    | faulting e e' => rfl
    | _ => exact key
  · exact absurd (hi.symm.trans hm) (by decide)

/-- Memory is in canonical form after reset. -/
theorem reset_mem_wf : State.reset.mem.wf = true := rfl

/-- The byte placed by `placeByte` is the one a fetch reads, and the fetch changes nothing. -/
theorem memRead_placeByte (mem : Mem) (a : Word) (b : Byte) :
    memRead (placeByte mem a b) a = .ok (b, placeByte mem a b) := by
  unfold placeByte
  cases hk : mem.kindAt a with
  | ordinary => simp [memRead, hk, plainRead, Except.map]
  | readOnly e => simp [memRead, hk, plainRead, Except.map]
  | guarded => simp [memRead, hk, plainRead, Except.map]
  | faulting e e' => simp [memRead, Mem.kindAt, kindIn, Region.holds, plainRead, Except.map]
  | mmio => simp [memRead, Mem.kindAt, kindIn, Region.holds, plainRead, Except.map]

end Sys2Proof.Machine
end

