-- ==== Sys2Proof/Laws/Registers.lean ====
section
/-! SUPPORT. Registers: the two views of one storage (10_state.md R27), read after write, everything else unchanged
(42_register_file_accessors.md R132), and the flag helpers. -/

namespace Sys2Proof.Machine

open Sys2Proof

@[simp] theorem RegPair.ofU16_asU16 (p : RegPair) : RegPair.ofU16 p.asU16 = p := by
  obtain ⟨high, low⟩ := p
  have := high.isLt
  have := low.isLt
  simp only [RegPair.ofU16, RegPair.asU16, RegPair.mk.injEq]
  constructor <;> apply BitVec.eq_of_toNat_eq <;>
    simp only [BitVec.extractLsb'_toNat, append_toNat, Nat.shiftRight_eq_div_pow] <;> omega

@[simp] theorem RegPair.asU16_ofU16 (v : Word) : (RegPair.ofU16 v).asU16 = v := by
  simp only [RegPair.ofU16, RegPair.asU16]
  rw [BitVec.extractLsb'_append_extractLsb'_eq_extractLsb' (by rfl)]
  exact BitVec.extractLsb'_eq_self

@[simp] theorem RegPair.lane_setLane (p : RegPair) (l : Lane) (v : Byte) : (p.setLane l v).lane l = v := by
  cases l <;> rfl

theorem RegPair.lane_setLane_of_ne (p : RegPair) {l l' : Lane} (v : Byte) (h : l' ≠ l) :
    (p.setLane l v).lane l' = p.lane l' := by
  cases l <;> cases l' <;> first | rfl | exact absurd rfl h

/-- Each identifier names its own lane (10_state.md R23). -/
theorem placeOf_injective : Function.Injective placeOf := by
  intro x y h
  cases x <;> cases y <;> first | rfl | cases h

@[simp] theorem CoreState.readR8_writeR8 (c : CoreState) (id : R8Id) (v : Byte) :
    (c.writeR8 id v).readR8 id = v := by
  simp [CoreState.readR8, CoreState.writeR8]

theorem CoreState.readR8_writeR8_of_ne (c : CoreState) {id id' : R8Id} (v : Byte) (h : id' ≠ id) :
    (c.writeR8 id v).readR8 id' = c.readR8 id' := by
  cases id <;> cases id' <;> first | rfl | exact absurd rfl h

section writeR8
variable (c : CoreState) (id : R8Id) (v : Byte)

@[simp] theorem CoreState.writeR8_pc : (c.writeR8 id v).pc = c.pc := CoreState.setPair_pc _ _ _
@[simp] theorem CoreState.writeR8_sp : (c.writeR8 id v).sp = c.sp := CoreState.setPair_sp _ _ _
@[simp] theorem CoreState.writeR8_ime : (c.writeR8 id v).ime = c.ime := CoreState.setPair_ime _ _ _
@[simp] theorem CoreState.writeR8_clk : (c.writeR8 id v).clk = c.clk := CoreState.setPair_clk _ _ _

end writeR8

@[simp] theorem CoreState.readR16_writeR16 (c : CoreState) (id : R16Id) (v : Word) :
    (c.writeR16 id v).readR16 id = v := by
  cases id <;> simp [CoreState.readR16, CoreState.writeR16]

theorem CoreState.readR16_writeR16_of_ne (c : CoreState) {id id' : R16Id} (v : Word) (h : id' ≠ id) :
    (c.writeR16 id v).readR16 id' = c.readR16 id' := by
  cases id <;> cases id' <;> first | rfl | exact absurd rfl h

section writeR16
variable (c : CoreState) (id : R16Id) (v : Word)

@[simp] theorem CoreState.writeR16_ime : (c.writeR16 id v).ime = c.ime := by cases id <;> rfl
@[simp] theorem CoreState.writeR16_clk : (c.writeR16 id v).clk = c.clk := by cases id <;> rfl

end writeR16

/-- The carry of a byte whose carry was set or cleared (41 R112). -/
@[simp] theorem carryOf_withCarry : ∀ (state : Bool) (f : Byte), carryOf (withCarry f state) = state := by decide

/-- The other bits keep their values (41 R112). -/
theorem getLsbD_withCarry_of_ne (f : Byte) (state : Bool) {k : Nat} (h : k ≠ 4) :
    (withCarry f state).getLsbD k = f.getLsbD k := by
  by_cases hk : k < 8
  · have h4 : k = 0 ∨ k = 1 ∨ k = 2 ∨ k = 3 ∨ k = 5 ∨ k = 6 ∨ k = 7 := by omega
    rcases h4 with rfl | rfl | rfl | rfl | rfl | rfl | rfl <;> cases state <;>
      simp [withCarry, carryMask, FlagBit.position, Config.carryBit]
  · simp [BitVec.getLsbD_of_ge, Nat.le_of_not_lt hk]

end Sys2Proof.Machine
end

