-- ==== Sys2Proof/Laws/Behaviour.lean ====
section
/-! SUPPORT. What accessor commands, issued words and behaviours can do. -/

namespace Sys2Proof.Machine

open Sys2Proof

/-- An accessor has a reply; STEP and the opcode byte have none. -/
theorem accessorReply?_isSome (width : Option Nat) (i : Instr) (c : CoreState) :
    (accessorReply? width i c).isSome = i.isAccessor := by
  cases i <;> rfl

/-- CLKADD, said once: it adds where the sum fits, and else overflows with no change. -/
theorem coreClkadd_cases (width : Option Nat) (sel : ClockSel) (amount : Word) (c : CoreState) :
    (fitsWidth width (c.clk.get sel + amount.toNat) = true ∧
        coreClkadd width sel amount c = ⟨{ c with clk := c.clk.add sel amount.toNat }, .ok .none⟩) ∨
      (fitsWidth width (c.clk.get sel + amount.toNat) = false ∧
        coreClkadd width sel amount c = ⟨c, .clockOverflow⟩) := by
  unfold coreClkadd
  split
  · exact .inl ⟨‹_›, rfl⟩
  · next h => exact .inr ⟨Bool.eq_false_iff.2 h, rfl⟩

/-- An accessor's reply is a success, or a CLKADD's overflow, which changes nothing. -/
theorem accessorReply?_cases {width : Option Nat} {i : Instr} {c : CoreState} {r : CoreReply}
    (h : accessorReply? width i c = some r) :
    (∃ v, r.response = .ok v) ∨
      (r = ⟨c, .clockOverflow⟩ ∧ ∃ sel amount, i = .clkadd sel amount ∧
        fitsWidth width (c.clk.get sel + amount.toNat) = false) := by
  cases i with
  | clkadd sel amount =>
    obtain rfl : coreClkadd width sel amount c = r := by simpa [accessorReply?] using h
    obtain ⟨-, hr⟩ | ⟨hf, hr⟩ := coreClkadd_cases width sel amount c
    · exact .inl ⟨.none, by rw [hr]⟩
    · exact .inr ⟨hr, sel, amount, rfl, hf⟩
  | step => cases h
  | opcode b => cases h
  | _ => exact .inl ⟨_, by cases h; rfl⟩

/-- What an accessor can do to the clock: nothing, or a CLKADD's addition, where it fits. -/
theorem accessorReply?_clk {width : Option Nat} {i : Instr} {c : CoreState} {r : CoreReply}
    (h : accessorReply? width i c = some r) :
    r.core.clk = c.clk ∨ ∃ sel amount, i = .clkadd sel amount ∧ r.core.clk = c.clk.add sel amount.toNat ∧
      fitsWidth width (c.clk.get sel + amount.toNat) = true := by
  cases i with
  | clkadd sel amount =>
    obtain rfl : coreClkadd width sel amount c = r := by simpa [accessorReply?] using h
    obtain ⟨hf, hr⟩ | ⟨-, hr⟩ := coreClkadd_cases width sel amount c
    · exact .inr ⟨sel, amount, rfl, by rw [hr], hf⟩
    · exact .inl (by rw [hr])
  | wr8 id v => exact .inl (by cases h; exact CoreState.writeR8_clk c id v)
  | wr16 id v => exact .inl (by cases h; exact CoreState.writeR16_clk c id v)
  | setc state => exact .inl (by cases h; exact CoreState.writeR8_clk c _ _)
  | step => cases h
  | opcode b => cases h
  | _ => exact .inl (by cases h; rfl)

/-- No accessor decreases a counter (43 R143). -/
theorem accessorReply?_clk_mono {width : Option Nat} {i : Instr} {c : CoreState} {r : CoreReply}
    (h : accessorReply? width i c = some r) : c.clk.m ≤ r.core.clk.m ∧ c.clk.t ≤ r.core.clk.t := by
  obtain h | ⟨sel, amount, -, h, -⟩ := accessorReply?_clk h
  · rw [h]
    exact ⟨le_rfl, le_rfl⟩
  · rw [h]
    cases sel <;> simp

/-- An accessor keeps both counters within CLOCK_WIDTH (43 R142). -/
theorem accessorReply?_fits {width : Option Nat} {i : Instr} {c : CoreState} {r : CoreReply}
    (h : accessorReply? width i c = some r) (hf : c.clk.fits width = true) : r.core.clk.fits width = true := by
  obtain h | ⟨sel, amount, -, h, hs⟩ := accessorReply?_clk h
  · rwa [h]
  · rw [h]
    simp only [Clock.fits, Bool.and_eq_true] at hf ⊢
    cases sel
    · exact ⟨hs, hf.2⟩
    · exact ⟨hf.1, hs⟩

/-- Every value fits the unbounded width (43 R142). -/
@[simp] theorem fitsWidth_none (n : Nat) : fitsWidth none n = true := rfl

/-- A word a behaviour issues that fails changes nothing (60 R181, R184). -/
theorem issueWord_failure {width : Option Nat} {w : CommandWord} {c : CoreState}
    (h : (issueWord width w c).response.isFailure = true) : (issueWord width w c).core = c := by
  unfold issueWord at h ⊢
  split
  · rfl
  · split
    · next r hr =>
      obtain ⟨v, hv⟩ | ⟨hr', -⟩ := accessorReply?_cases hr
      · simp only [*] at h
        exact absurd h (by simp [Response.isFailure, Response.status])
      · rw [hr']
    · rfl

/-- With the clock unbounded no issued word overflows (43 R142; 60 R186). -/
theorem issueWord_unbounded (w : CommandWord) (c : CoreState) : (issueWord none w c).response ≠ .clockOverflow := by
  unfold issueWord
  split
  · simp
  · split
    · next r hr =>
      obtain ⟨v, hv⟩ | ⟨-, sel, amount, -, hf⟩ := accessorReply?_cases hr
      · simp [hv]
      · simp at hf
    · simp

/-- A script with the clock unbounded never ends in an overflow. -/
theorem runScript_unbounded (operands : Meta) (p : Script) :
    ∀ env c mem, runScript none operands p env c mem ≠ .overflow := by
  induction p with
  | finish dm dt => intro env c mem; simp [runScript]
  | command word next ih =>
    intro env c mem
    simp only [runScript, issueWord_unbounded, if_false]
    exact ih _ _ _
  | read addr next ih =>
    intro env c mem
    simp only [runScript]
    split
    · simp
    · exact ih _ _ _
  | write addr value next ih =>
    intro env c mem
    simp only [runScript]
    split
    · simp
    · exact ih _ _ _
  | branch cond onTrue onFalse iht ihf =>
    intro env c mem
    simp only [runScript]
    split
    · exact ihf _ _ _
    · exact iht _ _ _

theorem runBehaviour_unbounded (b : Behaviour) (operands : Meta) (c : CoreState) (mem : Mem) :
    runBehaviour none b operands c mem ≠ .overflow := by
  cases b with
  | script p => exact runScript_unbounded operands p [] c mem
  | external id =>
    simp only [runBehaviour]
    split <;> simp

/-- What every memory access keeps, a script that ends normally keeps. -/
theorem runScript_keeps {P : Mem → Prop}
    (hr : ∀ {mem mem' a v}, memRead mem a = .ok (v, mem') → P mem → P mem')
    (hw : ∀ {mem mem' a v}, memWrite mem a v = .ok mem' → P mem → P mem')
    {width : Option Nat} {operands : Meta} {p : Script} :
    ∀ {env : List Nat} {c : CoreState} {mem : Mem} {c' : CoreState} {mem' : Mem} {dm dt : Nat},
      runScript width operands p env c mem = .done c' mem' dm dt → P mem → P mem' := by
  induction p with
  | finish dm dt =>
    intro env c mem c' mem' dm' dt' h hp
    simp only [runScript, BehResult.done.injEq] at h
    exact h.2.1 ▸ hp
  | command word next ih =>
    intro env c mem c' mem' dm' dt' h hp
    simp only [runScript] at h
    split at h
    · cases h
    · exact ih h hp
  | read addr next ih =>
    intro env c mem c' mem' dm' dt' h hp
    simp only [runScript] at h
    split at h
    · cases h
    · exact ih h (hr ‹_› hp)
  | write addr value next ih =>
    intro env c mem c' mem' dm' dt' h hp
    simp only [runScript] at h
    split at h
    · cases h
    · exact ih h (hw ‹_› hp)
  | branch cond onTrue onFalse iht ihf =>
    intro env c mem c' mem' dm' dt' h hp
    simp only [runScript] at h
    split at h
    · exact ihf h hp
    · exact iht h hp

/-- A behaviour that ends normally keeps the memory's canonical form. -/
theorem runBehaviour_wf {width : Option Nat} {b : Behaviour} {operands : Meta} {c c' : CoreState} {mem mem' : Mem}
    {dm dt : Nat} (h : runBehaviour width b operands c mem = .done c' mem' dm dt) (hw : mem.wf = true) :
    mem'.wf = true := by
  cases b with
  | script p => exact runScript_keeps (P := fun m => m.wf = true) memRead_wf memWrite_wf h hw
  | external id =>
    simp only [runBehaviour] at h
    split at h
    · cases h
    · simp only [BehResult.done.injEq] at h
      exact h.2.1 ▸ Mem.wf_applyEffect hw _

/-- A behaviour that ends normally keeps the memory map. -/
theorem runBehaviour_map {width : Option Nat} {b : Behaviour} {operands : Meta} {c c' : CoreState} {mem mem' : Mem}
    {dm dt : Nat} (h : runBehaviour width b operands c mem = .done c' mem' dm dt) : mem'.map = mem.map := by
  cases b with
  | script p =>
    exact runScript_keeps (P := fun m => m.map = mem.map) (fun h hp => (memRead_map h).trans hp)
      (fun h hp => (memWrite_map h).trans hp) h rfl
  | external id =>
    simp only [runBehaviour] at h
    split at h
    · cases h
    · simp only [BehResult.done.injEq] at h
      rw [← h.2.1, Mem.applyEffect_map]

end Sys2Proof.Machine
end

