-- ==== Sys2Proof/Laws/Dispatcher.lean ====
section
/-! SUPPORT. Everything STEP and the fetched opcode can do, said once (44_dispatcher.md R150): a failure that changes
nothing but the response list, or the commit of a behaviour's results. -/

namespace Sys2Proof.Machine

open Sys2Proof

theorem keepsContract_iff (before after : Clock) (dm dt : Nat) :
    keepsContract before after dm dt = true ↔ after.m = before.m + dm ∧ after.t = before.t + dt := by
  cases after
  simp [keepsContract]

/-- Everything `commit` can do. -/
theorem commit_cases (s : State) (opc : Byte) (r : BehResult) :
    (∃ f, f.isFailure = true ∧ commit s opc r = s.raise f) ∨
      ∃ c mem dm dt, r = .done c mem dm dt ∧ c.clk.m = s.core.clk.m + dm ∧ c.clk.t = s.core.clk.t + dt ∧
        c.clk.fits s.clockWidth = true ∧
        commit s opc r = State.respond { s with core := c, mem := mem } (.ok (.cost dm dt)) := by
  cases r with
  | memError e => exact .inl ⟨_, rfl, rfl⟩
  | overflow => exact .inl ⟨_, rfl, rfl⟩
  | done c mem dm dt =>
    cases hk : keepsContract s.core.clk c.clk dm dt with
    | false => exact .inl ⟨.contractViolation opc s.core.pc, rfl, by simp [commit, hk]⟩
    | true =>
      cases hf : c.clk.fits s.clockWidth with
      | false => exact .inl ⟨.clockOverflow, rfl, by simp [commit, hk, hf]⟩
      | true =>
        obtain ⟨hm, ht⟩ := (keepsContract_iff _ _ _ _).1 hk
        exact .inr ⟨c, mem, dm, dt, rfl, hm, ht, hf, by simp [commit, hk, hf]⟩

/-- Everything a fetched opcode can do. -/
theorem runOpcode_cases (s : State) (opc : Byte) (fetched : Mem) :
    (∃ f, f.isFailure = true ∧ runOpcode s opc fetched = s.raise f) ∨
      ∃ b c mem dm dt, (s.table.descriptor opc).kind = .implemented b ∧
        runBehaviour s.clockWidth b (s.table.descriptor opc).operands s.core fetched = .done c mem dm dt ∧
        c.clk.m = s.core.clk.m + dm ∧ c.clk.t = s.core.clk.t + dt ∧ c.clk.fits s.clockWidth = true ∧
        runOpcode s opc fetched = State.respond { s with core := c, mem := mem } (.ok (.cost dm dt)) := by
  unfold runOpcode
  cases hd : (s.table.descriptor opc).kind with
  | placeholder => exact .inl ⟨_, rfl, rfl⟩
  | implemented b =>
    obtain h | ⟨c, mem, dm, dt, hr, hm, ht, hf, h⟩ := commit_cases s opc
      (runBehaviour s.clockWidth b (s.table.descriptor opc).operands s.core fetched)
    · exact .inl h
    · exact .inr ⟨b, c, mem, dm, dt, rfl, hr, hm, ht, hf, h⟩

/-- Everything a step can do. -/
theorem runStep_cases (s : State) :
    (∃ f, f.isFailure = true ∧ runStep s = s.raise f) ∨
      ∃ opc fetched b c mem dm dt, memRead s.mem s.core.pc = .ok (opc, fetched) ∧
        (s.table.descriptor opc).kind = .implemented b ∧
        runBehaviour s.clockWidth b (s.table.descriptor opc).operands s.core fetched = .done c mem dm dt ∧
        c.clk.m = s.core.clk.m + dm ∧ c.clk.t = s.core.clk.t + dt ∧ c.clk.fits s.clockWidth = true ∧
        runStep s = State.respond { s with core := c, mem := mem } (.ok (.cost dm dt)) := by
  unfold runStep
  cases hr : memRead s.mem s.core.pc with
  | error e => exact .inl ⟨_, rfl, rfl⟩
  | ok p =>
    obtain h | ⟨b, c, mem, dm, dt, h⟩ := runOpcode_cases s p.1 p.2
    · exact .inl h
    · exact .inr ⟨p.1, p.2, b, c, mem, dm, dt, rfl, h⟩

/-- The response list plays no part in a commit: the same response is recorded after any earlier ones. -/
theorem commit_responses (s : State) (opc : Byte) (res : BehResult) :
    ∃ r, ∀ rs, commit { s with responses := rs } opc res = { commit s opc res with responses := rs ++ [r] } := by
  cases res with
  | memError e => exact ⟨_, fun _ => rfl⟩
  | overflow => exact ⟨_, fun _ => rfl⟩
  | done c mem dm dt =>
    cases hk : keepsContract s.core.clk c.clk dm dt with
    | false => exact ⟨.contractViolation opc s.core.pc, fun rs => by simp [commit, hk, State.raise, State.respond]⟩
    | true =>
      cases hf : c.clk.fits s.clockWidth with
      | false => exact ⟨.clockOverflow, fun rs => by simp [commit, hk, hf, State.raise, State.respond]⟩
      | true => exact ⟨.ok (.cost dm dt), fun rs => by simp [commit, hk, hf, State.respond]⟩

/-- The response list plays no part in a step (44 R160). -/
theorem runStep_responses (s : State) :
    ∃ r, ∀ rs, runStep { s with responses := rs } = { runStep s with responses := rs ++ [r] } := by
  unfold runStep
  dsimp only
  cases memRead s.mem s.core.pc with
  | error e => exact ⟨_, fun _ => rfl⟩
  | ok p =>
    unfold runOpcode
    dsimp only
    cases (s.table.descriptor p.1).kind with
    | placeholder => exact ⟨_, fun _ => rfl⟩
    | implemented b => exact commit_responses s p.1 _

end Sys2Proof.Machine
end

