-- ==== Sys2Proof/Laws/Exec.lean ====
section
/-! SUPPORT. Everything exec and step can do, said once. -/

namespace Sys2Proof.Machine

open Sys2Proof

/-- Everything exec can do: an accessor's reply; a failure of STEP or of a fetched opcode, which changes nothing; or
a behaviour's results. It always answers a next state. -/
theorem exec_cases (i : Instr) (s : State) :
    (∃ r, accessorReply? s.clockWidth i s.core = some r ∧ exec i s = .next (s.finish r)) ∨
      (i.isAccessor = false ∧ ∃ f, f.isFailure = true ∧ exec i s = .next (s.raise f)) ∨
      (i.isAccessor = false ∧ ∃ opc fetched b c mem dm dt,
        (fetched = s.mem ∨ memRead s.mem s.core.pc = .ok (opc, fetched)) ∧
        (s.table.descriptor opc).kind = .implemented b ∧
        runBehaviour s.clockWidth b (s.table.descriptor opc).operands s.core fetched = .done c mem dm dt ∧
        c.clk.m = s.core.clk.m + dm ∧ c.clk.t = s.core.clk.t + dt ∧ c.clk.fits s.clockWidth = true ∧
        exec i s = .next (State.respond { s with core := c, mem := mem } (.ok (.cost dm dt)))) := by
  cases i with
  | step =>
    obtain ⟨f, hf, h⟩ | ⟨opc, fetched, b, c, mem, dm, dt, hr, hk, hb, hm, ht, hf, h⟩ := runStep_cases s
    · exact .inr (.inl ⟨rfl, f, hf, congrArg Host.Outcome.next h⟩)
    · exact .inr (.inr ⟨rfl, opc, fetched, b, c, mem, dm, dt, .inr hr, hk, hb, hm, ht, hf,
        congrArg Host.Outcome.next h⟩)
  | opcode opc =>
    obtain ⟨f, hf, h⟩ | ⟨b, c, mem, dm, dt, hk, hb, hm, ht, hf, h⟩ := runOpcode_cases s opc s.mem
    · exact .inr (.inl ⟨rfl, f, hf, congrArg Host.Outcome.next h⟩)
    · exact .inr (.inr ⟨rfl, opc, s.mem, b, c, mem, dm, dt, .inl rfl, hk, hb, hm, ht, hf,
        congrArg Host.Outcome.next h⟩)
  | _ => exact .inl ⟨_, rfl, rfl⟩

/-- A command word the host issues: an illegal word is answered and changes nothing else, a legal one is executed. -/
theorem runCommand_cases (w : CommandWord) (s : State) :
    (∃ r, decodeCommand w = .error r ∧ runCommand w s = .next (s.raise (.illegalCommand w))) ∨
      ∃ i, decodeCommand w = .ok i ∧ runCommand w s = exec i s := by
  unfold runCommand
  cases decodeCommand w with
  | error r => exact .inl ⟨r, rfl, rfl⟩
  | ok i => exact .inr ⟨i, rfl, rfl⟩

/-- Everything a step of the machine can do that answers a next state. -/
theorem step_cases {s t : State} (h : step s = .next t) :
    (s.inputs = [] ∧ t = s) ∨
      (∃ w rest r, s.inputs = .command w :: rest ∧ decodeCommand w = .error r ∧
        t = State.raise { s with inputs := rest } (.illegalCommand w)) ∨
      (∃ w rest i, s.inputs = .command w :: rest ∧ decodeCommand w = .ok i ∧
        exec i { s with inputs := rest } = .next t) ∨
      (∃ e rest, s.inputs = .memory e :: rest ∧ t = setMemory { s with inputs := rest } e) ∨
      (∃ ds rest, s.inputs = .construct ds :: rest ∧ constructState { s with inputs := rest } ds = .next t) := by
  unfold step at h
  split at h
  · exact .inl ⟨‹_›, (Host.Outcome.next.inj h).symm⟩
  · next w rest hi =>
    obtain ⟨r, hd, hr⟩ | ⟨i, hd, hr⟩ := runCommand_cases w { s with inputs := rest }
    · exact .inr (.inl ⟨w, rest, r, hi, hd, (Host.Outcome.next.inj (hr.symm.trans h)).symm⟩)
    · exact .inr (.inr (.inl ⟨w, rest, i, hi, hd, hr.symm.trans h⟩))
  · next e rest hi =>
    exact .inr (.inr (.inr (.inl ⟨e, rest, hi, (Host.Outcome.next.inj h).symm⟩)))
  · next ds rest hi => exact .inr (.inr (.inr (.inr ⟨ds, rest, hi, h⟩)))

/-- Construction with a table of 256 descriptors, or its failure (44 R161). -/
theorem constructState_cases (s : State) (ds : List Descriptor) :
    (∃ t, ds.length = 256 ∧ tableOf ds = .ok t ∧
        constructState s ds = .next { s with core := CoreState.reset, table := t, responses := [] }) ∨
      (ds.length ≠ 256 ∧ constructState s ds = .fault (.constructionError ds.length)) := by
  unfold constructState tableOf
  split
  · split at * <;> simp_all
  · split at * <;> simp_all

/-- A run of one step more, where the first step answers. -/
theorem core_run_succ (M : Host.Core) {n : Nat} {s u : M.State} (h : M.step s = .next u) :
    M.run (n + 1) s = M.run n u := by
  rw [Host.Core.run, h]

/-- A run of one step more that answers: its first step answers. -/
theorem core_step_of_run_succ (M : Host.Core) {n : Nat} {s t : M.State} (h : M.run (n + 1) s = .next t) :
    ∃ u, M.step s = .next u ∧ M.run n u = .next t := by
  rw [Host.Core.run] at h
  cases hs : M.step s with
  | next u => exact ⟨u, rfl, by rwa [hs] at h⟩
  | fault r =>
    rw [hs] at h
    cases h
  | refused r =>
    rw [hs] at h
    cases h

theorem run_succ_of_step {n : Nat} {s u : State} (h : step s = .next u) :
    Host.Core.run Sys2Proof.core (n + 1) s = Host.Core.run Sys2Proof.core n u :=
  core_run_succ Sys2Proof.core h

theorem step_of_run_succ {n : Nat} {s t : State} (h : Host.Core.run Sys2Proof.core (n + 1) s = .next t) :
    ∃ u, step s = .next u ∧ Host.Core.run Sys2Proof.core n u = .next t :=
  core_step_of_run_succ Sys2Proof.core h

end Sys2Proof.Machine
end

