-- ==== Sys2Proof/Laws/PerInstr.lean ====
section
/-! SUPPORT. The family LegalEncoding: every command's encoding is the word of legal fields, and the opcode byte's is
the byte (30_encoding.md R74 to R77, R82). One lemma per constructor of Instr. -/

namespace Sys2Proof.Laws.LegalEncoding

open Sys2Proof

/-- A command is encoded as the word of fields that no case of R77 rejects; the opcode byte is encoded as a byte. -/
def Statement (i : Instr) : Prop :=
  (i.isCommand = true → ∃ f : Fields, encode i = .command (wordOf f) ∧ f.illegal? = none) ∧
    (i.isCommand = false → ∃ b, encode i = .opcodeByte b)

theorem of_fields {i : Instr} {f : Fields} (h : encode i = .command (wordOf f)) (hl : f.illegal? = none)
    (hc : i.isCommand = true) : Statement i :=
  ⟨fun _ => ⟨f, h, hl⟩, fun hn => absurd (hc.symm.trans hn) (by decide)⟩

theorem rd8 (id : R8Id) : Statement (.rd8 id) := of_fields rfl (by cases id <;> rfl) rfl

theorem wr8 (id : R8Id) (v : Byte) : Statement (.wr8 id v) := by
  have h : (v.setWidth 16).extractLsb' 8 8 = (0 : BitVec 8) := by
    apply BitVec.eq_of_toNat_eq
    have := v.isLt
    simp only [BitVec.extractLsb'_toNat, BitVec.toNat_setWidth, Nat.shiftRight_eq_div_pow]
    simp
    omega
  refine of_fields rfl ?_ rfl
  simp [Fields.illegal?, commandRows, CommandRow.zeroOk, CommandRow.idOk, SelUse.zeroOk, ImmUse.zeroOk, h]

theorem rd16 (id : R16Id) : Statement (.rd16 id) := of_fields rfl (by cases id <;> rfl) rfl
theorem wr16 (id : R16Id) (v : Word) : Statement (.wr16 id v) := of_fields rfl (by cases id <;> rfl) rfl
theorem rdpc : Statement .rdpc := of_fields rfl rfl rfl
theorem rdsp : Statement .rdsp := of_fields rfl rfl rfl
theorem incpc (amount : Word) : Statement (.incpc amount) := of_fields rfl rfl rfl
theorem getc : Statement .getc := of_fields rfl rfl rfl
theorem setc (state : Bool) : Statement (.setc state) := of_fields rfl rfl rfl
theorem rdime : Statement .rdime := of_fields rfl rfl rfl
theorem wrime (state : Bool) : Statement (.wrime state) := of_fields rfl rfl rfl
theorem clkrd (sel : ClockSel) : Statement (.clkrd sel) := of_fields rfl (by cases sel <;> rfl) rfl
theorem clkadd (sel : ClockSel) (amount : Word) : Statement (.clkadd sel amount) :=
  of_fields rfl (by cases sel <;> simp [Fields.illegal?, commandRows, CommandRow.zeroOk, CommandRow.idOk,
    SelUse.zeroOk, ImmUse.zeroOk, ClockSel.code]) rfl
theorem step : Statement .step := of_fields rfl rfl rfl
theorem opcode (b : Byte) : Statement (.opcode b) := ⟨fun h => (by cases h), fun _ => ⟨b, rfl⟩⟩

end Sys2Proof.Laws.LegalEncoding
end

