-- ==== Sys2Proof/Tests/Slice0.lean ====
section
/-! SUPPORT. The model's own tests. Expected results come from spec/95_test_vectors.md (its ids stand in the comments)
or by hand from the rule named. Then a witness for every obligation with hypotheses. -/

namespace Sys2Proof.Tests

open Sys2Proof Sys2Proof.Machine Sys2Proof.Spec

/-! ## WellFormed: a word refused by each check of R77, and a legal one -/

theorem test_reserved_op_refused : (fieldsOf 0xF12345).illegal? = some .reservedOp := by decide
theorem test_must_be_zero_refused : (fieldsOf 0x1201FF).illegal? = some .mustBeZero := by decide
theorem test_no_identifier_refused : (fieldsOf 0x3EFFFF).illegal? = some .noSuchIdentifier := by decide
theorem test_counter_select_refused : (fieldsOf 0xB40000).illegal? = some .mustBeZero := by decide
theorem test_b_field_refused : (fieldsOf 0xC10001).illegal? = some .mustBeZero := by decide
theorem test_legal_word_accepted : (fieldsOf 0x1200FF).legal = true := by decide

/-! ## Decode: each constructor's word, written from the tables of R74 and R76 (95_test_vectors.md 2.7) -/

theorem test_decode_rd8 : decodeCommand 0x0E0000 = .ok (.rd8 .f) := by decide
theorem test_decode_wr8 : decodeCommand 0b000100100000000011111111 = .ok (.wr8 .c 0xFF) := by decide
theorem test_decode_rd16 : decodeCommand 0x2A0000 = .ok (.rd16 .pc) := by decide
theorem test_decode_wr16 : decodeCommand 0x3AFFFF = .ok (.wr16 .pc 0xFFFF) := by decide
theorem test_decode_rdpc : decodeCommand 0x400000 = .ok .rdpc := by decide
theorem test_decode_rdsp : decodeCommand 0x500000 = .ok .rdsp := by decide
theorem test_decode_incpc : decodeCommand 0x60FFFF = .ok (.incpc 0xFFFF) := by decide
theorem test_decode_getc : decodeCommand 0b011100000000000000000000 = .ok .getc := by decide
theorem test_decode_setc : decodeCommand 0x810000 = .ok (.setc true) := by decide
theorem test_decode_rdime : decodeCommand 0x900000 = .ok .rdime := by decide
theorem test_decode_wrime : decodeCommand 0xA10000 = .ok (.wrime true) := by decide
theorem test_decode_clkrd : decodeCommand 0xB20000 = .ok (.clkrd .t) := by decide
theorem test_decode_clkadd : decodeCommand 0b110000100000000000000001 = .ok (.clkadd .t 1) := by decide
theorem test_decode_step : decodeCommand 0xD00000 = .ok .step := by decide
theorem test_decode_opcode : decodeTableWord 8 0xA5 = some (.opcode 0xA5) := by decide
theorem test_decode_illegal : decodeCommand 0xD00001 = .error .mustBeZero := by decide

/-! ## Assembler lines (R86) with the words of 95_test_vectors.md -/

theorem test_assemble_program :
    assemble? [['W', 'R', '8', ' ', 'c', ',', ' ', '0', 'x', 'A', 'b'], ['S', 'E', 'T', 'C', ' ', '1'],
      ['C', 'L', 'K', 'R', 'D', ' ', 'T']] = some [0x1200AB, 0x810000, 0xB20000] := by decide
theorem test_assemble_refuses : assembleLine? ['S', 'E', 'T', 'C', ' ', '2'] = none := by decide

/-! ## States for the tests -/

/-- The state an instruction leaves, if it answers one. -/
def after (o : Host.Outcome State Fault Refusal) : Option State :=
  match o with
  | .next t => some t
  | .fault _ => none
  | .refused _ => none

/-- The block and the new responses an instruction leaves. -/
def outcome (i : Instr) (s : State) : Option (CoreState × List Response) :=
  (after (exec i s)).map fun t => (t.core, t.responses)

/-- The reset state with another block. -/
def withCore (c : CoreState) : State := { State.reset with core := c }

/-- The block of V42-22: B = 0x11, …, F = 0x88, PC = 0x4000, SP = 0x5000, ime, clock (3, 12). -/
def busy : CoreState :=
  { bc := ⟨0x11, 0x22⟩, de := ⟨0x33, 0x44⟩, hl := ⟨0x55, 0x66⟩, af := ⟨0x77, 0x88⟩, pc := 0x4000, sp := 0x5000,
    ime := true, clk := ⟨3, 12⟩ }

/-! ## Accessors -/

/-- RD8 F returns the whole flag lane (R121). -/
theorem test_rd8_f : outcome (.rd8 .f) (withCore busy) = some (busy, [.ok (.byte 0x88)]) := by decide

/-- V42-4's shape: the other lane of the pair stays (R124). -/
theorem test_wr8_b : outcome (.wr8 .b 0x00) (withCore busy) =
    some ({ busy with bc := ⟨0x00, 0x22⟩ }, [.ok .none]) := by decide

/-- WR8 A leaves F (R122). -/
theorem test_wr8_a : outcome (.wr8 .a 0xFF) (withCore busy) =
    some ({ busy with af := ⟨0xFF, 0x88⟩ }, [.ok .none]) := by decide

/-- V40-5: the high lane is the most-significant byte. -/
theorem test_rd16_bc : outcome (.rd16 .bc) (withCore { busy with bc := ⟨0xAB, 0xCD⟩ }) =
    some ({ busy with bc := ⟨0xAB, 0xCD⟩ }, [.ok (.word 0xABCD)]) := by decide
theorem test_rd16_sp : outcome (.rd16 .sp) (withCore busy) = some (busy, [.ok (.word 0x5000)]) := by decide

/-- V42-22. -/
theorem test_wr16_de : outcome (.wr16 .de 0xBEEF) (withCore busy) =
    some ({ busy with de := ⟨0xBE, 0xEF⟩ }, [.ok .none]) := by decide

/-- V40-4: bit 0 of F holds 1, no bit is hardwired. -/
theorem test_wr16_af : outcome (.wr16 .af 0x8001) (withCore busy) =
    some ({ busy with af := ⟨0x80, 0x01⟩ }, [.ok .none]) := by decide

theorem test_rdpc : outcome .rdpc (withCore busy) = some (busy, [.ok (.word 0x4000)]) := by decide
theorem test_rdsp : outcome .rdsp (withCore busy) = some (busy, [.ok (.word 0x5000)]) := by decide

/-- V42-12: the wrap, no failure. -/
theorem test_incpc_wraps : outcome (.incpc 1) (withCore { busy with pc := 0xFFFF }) =
    some ({ busy with pc := 0x0000 }, [.ok .none]) := by decide

/-- V42-13: back by one. -/
theorem test_incpc_back : outcome (.incpc 0xFFFF) (withCore { busy with pc := 0x0000 }) =
    some ({ busy with pc := 0xFFFF }, [.ok .none]) := by decide

/-- V41-3: every bit but the carry. -/
theorem test_getc_clear : outcome .getc (withCore { busy with af := ⟨0x77, 0xEF⟩ }) =
    some ({ busy with af := ⟨0x77, 0xEF⟩ }, [.ok (.flag false)]) := by decide

/-- V41-2. -/
theorem test_getc_set : outcome .getc (withCore { busy with af := ⟨0x77, 0x10⟩ }) =
    some ({ busy with af := ⟨0x77, 0x10⟩ }, [.ok (.flag true)]) := by decide

/-- V41-11. -/
theorem test_setc_sets : outcome (.setc true) (withCore { busy with af := ⟨0x77, 0xA5⟩ }) =
    some ({ busy with af := ⟨0x77, 0xB5⟩ }, [.ok .none]) := by decide

/-- V41-7. -/
theorem test_setc_clears : outcome (.setc false) (withCore { busy with af := ⟨0x77, 0xFF⟩ }) =
    some ({ busy with af := ⟨0x77, 0xEF⟩ }, [.ok .none]) := by decide

theorem test_rdime : outcome .rdime (withCore busy) = some (busy, [.ok (.flag true)]) := by decide

/-- V42-19. -/
theorem test_wrime : outcome (.wrime false) (withCore busy) =
    some ({ busy with ime := false }, [.ok .none]) := by decide

/-- V43-4's shape. -/
theorem test_clkrd : outcome (.clkrd .t) (withCore busy) = some (busy, [.ok (.count 12)]) := by decide

/-- V43-6: an unbounded counter passes 2^16. -/
theorem test_clkadd_unbounded : outcome (.clkadd .t 0xFFFF) (withCore { busy with clk := ⟨1, 65539⟩ }) =
    some ({ busy with clk := ⟨1, 131074⟩ }, [.ok .none]) := by decide

/-- V43-8: at a width of 16 the counter does not wrap. -/
theorem test_clkadd_overflow :
    outcome (.clkadd .m 1) { withCore { busy with clk := ⟨65535, 0⟩ } with clockWidth := some 16 } =
      some ({ busy with clk := ⟨65535, 0⟩ }, [.clockOverflow]) := by decide

/-! ## The fixture table and memory of 95_test_vectors.md 2.1 -/

/-- Commands whose words are known beforehand, in order. -/
def issue : List Nat → Script → Script
  | [], next => next
  | w :: ws, next => .command (.lit w) (issue ws next)

/-- CLKADD M, dm; CLKADD T, dt; and the end with that cost. -/
def charge (dm dt : Nat) : Script :=
  issue [0xC00000 + dm, 0xC20000 + dt] (.finish (.lit dm) (.lit dt))

def fNop : Script := issue [0x600001] (charge 1 4)

def fLdb : Script :=
  issue [0x400000] (.read (.add (.slot 0) (.lit 1))
    (.command (.add (.lit 0x100000) (.slot 0)) (issue [0x600002] (charge 2 8))))

def fJp : Script :=
  issue [0x400000] (.read (.add (.slot 0) (.lit 1)) (.read (.add (.slot 1) (.lit 2))
    (.command (.add (.lit 0x3A0000) (.add (.mul (.slot 0) (.lit 256)) (.slot 1))) (charge 4 16))))

def fStb : Script :=
  issue [0x600001, 0x240000, 0x000000] (.write (.slot 2) (.slot 0) (charge 2 8))

def fScf : Script := issue [0x810000, 0x600001] (charge 1 4)

def fBad : Script := issue [0x600001] (.finish (.lit 1) (.lit 4))

def fDjnz : Script :=
  issue [0x400000] (.read (.add (.slot 0) (.lit 1)) (issue [0x000000]
    (.command (.add (.lit 0x100000) (.mod (.add (.slot 0) (.lit 255)) (.lit 256))) (issue [0x000000]
      (.branch (.slot 0) (.command (.add (.lit 0x3A0000) (.slot 6)) (charge 2 8)) (issue [0x600002] (charge 2 8)))))))

/-- A descriptor with a script. -/
def scripted (p : Script) : Descriptor := ⟨.string "", .numbers [], .implemented (.script p)⟩

/-- A placeholder descriptor. -/
def blank : Descriptor := ⟨.string "", .numbers [], .placeholder⟩

/-- FIX: 0x00 to 0x06 are implemented, every other opcode is a placeholder. -/
def fix : Table :=
  .given (#v[scripted fNop, scripted fLdb, scripted fJp, scripted fStb, scripted fScf, scripted fBad, scripted fDjnz] ++
    Vector.replicate 249 blank)

/-- FMEM: 0xC000 fails on read and on write with payload E(0xC000); the given bytes, all others 0x00. -/
def fmem (cells : List Host.Cell) : Mem :=
  { cells := cells, unreadable := [], map := [⟨0xC000, 1, .faulting (.number 0xC000) (.number 0xC000)⟩], device := 0 }

/-- A state with FIX and FMEM. -/
def fixture (c : CoreState) (cells : List Host.Cell) : State :=
  { State.reset with core := c, mem := fmem cells, table := fix }

/-- What a step shows. -/
def shown (o : Host.Outcome State Fault Refusal) : Option (CoreState × Mem × List Response) :=
  (after o).map fun t => (t.core, t.mem, t.responses)

/-- V44-7: the operand address and PC wrap. -/
theorem test_step_ldb_wraps :
    shown (exec .step (fixture { CoreState.reset with pc := 0xFFFF } [(0x0000, 0x42), (0xFFFF, 0x01)])) =
      some ({ CoreState.reset with bc := ⟨0x42, 0⟩, pc := 0x0001, clk := ⟨2, 8⟩ },
        fmem [(0x0000, 0x42), (0xFFFF, 0x01)], [.ok (.cost 2 8)]) := by decide +kernel

/-- V44-9: the behaviour's INCPC before the failing write is undone. -/
theorem test_step_memory_error :
    shown (exec .step (fixture { CoreState.reset with bc := ⟨0x77, 0⟩, hl := ⟨0xC0, 0x00⟩ } [(0x0000, 0x03)])) =
      some ({ CoreState.reset with bc := ⟨0x77, 0⟩, hl := ⟨0xC0, 0x00⟩ }, fmem [(0x0000, 0x03)],
        [.invalidMemoryAccess (.number 0xC000)]) := by decide +kernel

/-- V44-13: B − 1 wraps to 0xFF and the jump is taken. -/
theorem test_opcode_djnz :
    shown (exec (.opcode 0x06) (fixture CoreState.reset [(0x0000, 0x06)])) =
      some ({ CoreState.reset with bc := ⟨0xFF, 0⟩, clk := ⟨2, 8⟩ }, fmem [(0x0000, 0x06)], [.ok (.cost 2 8)]) := by
  decide +kernel

/-- P5, step 5: the absolute jump. -/
theorem test_opcode_jp :
    shown (exec (.opcode 0x02)
      (fixture { CoreState.reset with pc := 1 } [(1, 0x02), (2, 0x34), (3, 0x12)])) =
      some ({ CoreState.reset with pc := 0x1234, clk := ⟨4, 16⟩ }, fmem [(1, 0x02), (2, 0x34), (3, 0x12)],
        [.ok (.cost 4 16)]) := by decide +kernel

/-! ## The machine's step -/

/-- V41-16: an illegal word is answered and nothing runs. -/
theorem test_step_illegal_word :
    shown (step ((withCore busy).withCommands [0x810001])) =
      some (busy, State.reset.mem, [.illegalCommand 0x810001]) := by decide

/-- `withFetchWord` places a command word, and an opcode byte, so that the next step runs it. -/
theorem test_fetch_word_command :
    shown (step ((withCore busy).withFetchWord 24 0x32BEEF)) =
      some ({ busy with de := ⟨0xBE, 0xEF⟩ }, State.reset.mem, [.ok .none]) := by decide
theorem test_fetch_word_opcode :
    shown (step ((fixture { CoreState.reset with pc := 0xC000 } []).withFetchWord 8 0x04)) =
      some ({ CoreState.reset with pc := 0xC001, af := ⟨0, 0x10⟩, clk := ⟨1, 4⟩ },
        { fmem [(0xC000, 0x04)] with map := ⟨0xC000, 1, .ordinary⟩ :: (fmem []).map }, [.ok (.cost 1 4)]) := by decide +kernel

/-- V44-17: a table of 255 descriptors. -/
theorem test_construction_error :
    step { State.reset with inputs := [.construct (List.replicate 255 (scripted fNop))] } =
      .fault (.constructionError 255) := by simp [-List.reduceReplicate, step, constructState, tableOf]

/-! ## Memory -/

/-- A write of what an unlisted byte reads as removes the entry; the order is kept. -/
theorem test_cells_canonical :
    cellSet [(1, 0x11), (5, 0x55)] 5 0x00 = [(1, 0x11)] ∧
      cellSet [(1, 0x11), (5, 0x55)] 3 0x33 = [(1, 0x11), (3, 0x33), (5, 0x55)] := by decide
theorem test_ill_formed_memory :
    Mem.wf ⟨[(5, 0x55), (1, 0x11)], [], [], 0⟩ = false ∧ Mem.wf ⟨[(1, 0x00)], [], [], 0⟩ = false ∧
      Mem.wf ⟨[(65536, 0x01)], [], [], 0⟩ = false ∧ Mem.wf ⟨[(1, 0x11)], [(1, .number 7)], [], 0⟩ = false ∧
      Mem.wf ⟨[], [(5, .number 7), (1, .number 7)], [], 0⟩ = false := by decide

/-- R51 to R54: memory that fails until it is written, and then reads as written. -/
theorem test_unreadable_until_written :
    memRead ⟨[], [(5, .number 7)], [], 0⟩ 5 = .error (.number 7) ∧
      memWrite ⟨[], [(5, .number 7)], [], 0⟩ 5 0x55 = .ok ⟨[(5, 0x55)], [], [], 0⟩ ∧
      memRead ⟨[(5, 0x55)], [], [], 0⟩ 5 = .ok (0x55, ⟨[(5, 0x55)], [], [], 0⟩) := by decide

/-! ## Witnesses: for each statement with hypotheses, values that meet all of them, for each clause -/

/-- A word that satisfies mask and match, and one that does not, both with the command code. -/
abbrev BothWords (op : Nat) (mask mtch good bad : CommandWord) : Prop :=
  (opField good = op ∧ good &&& mask = mtch) ∧ (opField bad = op ∧ bad &&& mask ≠ mtch)

theorem witness_Rd8ReturnsTheLane : BothWords 0x0 0xF1FFFF 0x000000 0x0E0000 0x010000 := by decide
theorem witness_Wr8WritesTheLane : BothWords 0x1 0xF1FF00 0x100000 0x1E00FF 0x1E0100 := by decide
/-- The last identifier, the first code that names nothing, and a must-be-zero bit. -/
theorem witness_Rd16ReturnsTheWideRegister : BothWords 0x2 0xF1FFFF 0x200000 0x2A0000 0x210000 ∧
    opField 0x2C0000 = 0x2 ∧ (0x2C0000 : CommandWord) &&& 0xF1FFFF = 0x200000 ∧ r16Codes[selField 0x2C0000]? = none := by
  decide
theorem witness_Wr16WritesTheWideRegister : BothWords 0x3 0xF10000 0x300000 0x3AFFFF 0x310000 ∧
    opField 0x3C0000 = 0x3 ∧ (0x3C0000 : CommandWord) &&& 0xF10000 = 0x300000 ∧ r16Codes[selField 0x3C0000]? = none := by
  decide
theorem witness_RdpcReturnsPc : BothWords 0x4 0xFFFFFF 0x400000 0x400000 0x400001 := by decide
theorem witness_RdspReturnsSp : BothWords 0x5 0xFFFFFF 0x500000 0x500000 0x580000 := by decide
theorem witness_IncpcAddsModulo65536 : BothWords 0x6 0xFF0000 0x600000 0x60FFFF 0x610000 := by decide
theorem witness_GetcReturnsBit4OfF : BothWords 0x7 0xFFFFFF 0x700000 0x700000 0x710000 := by decide
theorem witness_SetcWritesBit4OfF : BothWords 0x8 0xFEFFFF 0x800000 0x810000 0x810001 := by decide
theorem witness_RdimeReturnsIme : BothWords 0x9 0xFFFFFF 0x900000 0x900000 0x908000 := by decide
theorem witness_WrimeWritesIme : BothWords 0xA 0xFEFFFF 0xA00000 0xA10000 0xA20000 := by decide
theorem witness_ClkrdReturnsTheCounter : BothWords 0xB 0xFDFFFF 0xB00000 0xB20000 0xB40000 := by decide
theorem witness_StepWordIsExact : BothWords 0xD 0xFFFFFF 0xD00000 0xD00000 0xD00001 := by decide

/-- At a width of 16 the maximum is 65535; unbounded, no value passes. -/
theorem witness_ClkaddAddsOrOverflows : BothWords 0xC 0xFD0000 0xC00000 0xC2FFFF 0xC10000 ∧
    Passes (some 16) (65535 + (1 : Word).toNat) ∧ ¬Passes (some 16) (65534 + (1 : Word).toNat) ∧
    ¬Passes none (65535 + (1 : Word).toNat) :=
  ⟨by decide, ⟨16, rfl, by decide⟩, by rintro ⟨k, h, hp⟩; cases h; revert hp; decide, by rintro ⟨k, h, -⟩; cases h⟩

theorem witness_EncodeOfDecodeIsTheBits :
    decode (.command 0xC2FFFF) = .ok (.clkadd .t 0xFFFF) ∧ decode (.opcodeByte 0xFF) = .ok (.opcode 0xFF) := by decide

/-- A word that satisfies its row is not illegal. -/
theorem legal_word {w : CommandWord} {row : CommandWord × CommandWord} (hrow : maskTable[opField w]? = some row)
    (hw : w &&& row.1 = row.2) (hop : opField w ≠ 0xE ∧ opField w ≠ 0xF)
    (hsel : (opField w = 0x2 ∨ opField w = 0x3) → selField w ≠ 6 ∧ selField w ≠ 7) : ¬Illegal w := by
  rintro ((h | h) | ⟨r, hr, hne⟩ | ⟨ho, hs⟩)
  · exact hop.1 h
  · exact hop.2 h
  · rw [hrow] at hr; cases hr; exact hne hw
  · have := hsel ho; omega

/-- Each case of R77, and the words beside its edge: op 0xE and 0xD, a set and a clear bit 0, sel 6 and sel 5. -/
theorem witness_IllegalWordsDoNotExecute :
    Illegal 0xE00000 ∧ ¬Illegal 0xD00000 ∧ Illegal 0x810001 ∧ ¬Illegal 0x810000 ∧ Illegal 0x2C0000 ∧ ¬Illegal 0x2A0000 :=
  ⟨.inl (.inl (by decide)), legal_word (row := (0xFFFFFF, 0xD00000)) (by decide) (by decide) (by decide) (by decide),
    .inr (.inl ⟨(0xFEFFFF, 0x800000), by decide, by decide⟩),
    legal_word (row := (0xFEFFFF, 0x800000)) (by decide) (by decide) (by decide) (by decide),
    .inr (.inr (by decide)),
    legal_word (row := (0xF1FFFF, 0x200000)) (by decide) (by decide) (by decide) (by decide)⟩

theorem witness_StepRunsTheDecodedCommand :
    ((withCore busy).withCommands [0x32BEEF, 0x400000]).inputs = .command 0x32BEEF :: [.command 0x400000] ∧
      decodeCommand 0x32BEEF = .ok (.wr16 .de 0xBEEF) := by decide

theorem witness_IdleStepKeepsAllState : (withCore busy).inputs = [] := by decide

/-- A setup that names 0x10 twice and 0x11, makes 0xFFFF unreadable twice, and names no other; and one that names
nothing. -/
def setup : MemEffect :=
  { pokes := [(0x10, 1), (0x11, 2)] ++ (0x10, 3) :: [], unreadable := [(0xFFFF, .number 1)] ++ (0xFFFF, .number 2) :: []
    device := 5 }

theorem witness_MemorySetupChangesMemoryAlone :
    { withCore busy with inputs := [.memory setup, .memory ⟨[], [], 0⟩] }.inputs =
        .memory setup :: [.memory ⟨[], [], 0⟩] ∧
      { withCore busy with inputs := [.memory ⟨[], [], 0⟩] }.inputs = .memory ⟨[], [], 0⟩ :: [] ∧
      (setup.pokes = [(0x10, 1), (0x11, 2)] ++ (0x10, 3) :: [] ∧ (∀ p ∈ setup.unreadable, p.1 ≠ 0x10)) ∧
      (setup.pokes = [(0x10, 1)] ++ (0x11, 2) :: [(0x10, 3)] ∧ (∀ p ∈ [((0x10 : Word), (3 : Byte))], p.1 ≠ 0x11)) ∧
      setup.unreadable = [(0xFFFF, .number 1)] ++ (0xFFFF, .number 2) :: [] ∧
      (∀ p ∈ setup.pokes, p.1 ≠ 0x12) ∧ ∀ p ∈ setup.unreadable, p.1 ≠ 0x12 := by
  refine ⟨rfl, rfl, ⟨rfl, ?_⟩, ⟨rfl, ?_⟩, rfl, ?_, ?_⟩ <;> simp [setup]

theorem witness_ConstructionNeeds256Descriptors :
    (∃ s : State, s.inputs = .construct (List.replicate 256 blank) :: [] ∧ (List.replicate 256 blank).length = 256) ∧
    (∃ s : State, s.inputs = .construct (List.replicate 255 blank) :: [] ∧ (List.replicate 255 blank).length ≠ 256) ∧
    ∃ s : State, s.inputs = .construct (List.replicate 257 blank) :: [] ∧ (List.replicate 257 blank).length ≠ 256 :=
  ⟨⟨{ withCore busy with inputs := [.construct (List.replicate 256 blank)] }, rfl, List.length_replicate ..⟩,
    ⟨{ withCore busy with inputs := [.construct (List.replicate 255 blank)] }, rfl,
      by rw [List.length_replicate]; decide⟩,
    ⟨{ withCore busy with inputs := [.construct (List.replicate 257 blank)] }, rfl,
      by rw [List.length_replicate]; decide⟩⟩

theorem witness_PairRoundTrip : R16Id.af ≠ .pc ∧ R16Id.af ≠ .sp := by decide

theorem witness_PairInverse : R16Id.af ≠ .pc ∧ R16Id.af ≠ .sp ∧ ∃ t, exec (.rd16 .af) (withCore busy) = .next t ∧
    t.responses = (withCore busy).responses ++ [.ok (.word 0x7788)] :=
  ⟨by decide, by decide, _, rfl, by decide⟩

theorem witness_LanesArePartsOfTheirPair :
    (R16Id.af, R8Id.a, R8Id.f) ∈ [(R16Id.bc, R8Id.b, R8Id.c), (.de, .d, .e), (.hl, .h, .l), (.af, .a, .f)] := by decide

theorem witness_LaneIndependence : R8Id.c ≠ .b ∧
    Answers (.rd8 .c) (withCore busy) (withCore busy).core (.ok (.byte 0x22)) := ⟨by decide, rfl⟩

/-- INCPC over the wrap. -/
theorem witness_NoImplicitFlagUpdates : (Instr.incpc 0xFFFF).isAccessor = true ∧
    writesFlags (.incpc 0xFFFF) = false ∧ ∃ t, exec (.incpc 0xFFFF) (withCore busy) = .next t :=
  ⟨by decide, by decide, _, rfl⟩

/-- WR16 AF names lanes A and F and nothing else; SETC is the instruction of the clause about the seven other bits. -/
theorem witness_AccessorFrame : (Instr.wr16 .af 0xFFFF).isAccessor = true ∧
    (∃ t, exec (.wr16 .af 0xFFFF) (withCore busy) = .next t) ∧ mayChangeLane (.wr16 .af 0xFFFF) .b = false ∧
    mayChangePc (.wr16 .af 0xFFFF) = false ∧ mayChangeSp (.wr16 .af 0xFFFF) = false ∧
    mayChangeIme (.wr16 .af 0xFFFF) = false ∧ mayChangeCounter (.wr16 .af 0xFFFF) .m = false ∧
    (Instr.setc false).isAccessor = true ∧ (∃ t, exec (.setc false) (withCore busy) = .next t) ∧ 3 ≠ 4 :=
  ⟨by decide, ⟨_, rfl⟩, by decide, by decide, by decide, by decide, by decide, by decide, ⟨_, rfl⟩, by decide⟩

theorem witness_ImeChangesNoOtherAccessor : (Instr.clkadd .m 1).isAccessor = true ∧ Instr.clkadd .m 1 ≠ .rdime ∧
    (∀ state, Instr.clkadd .m 1 ≠ .wrime state) ∧ ∃ t, exec (.clkadd .m 1) (withCore busy) = .next t :=
  ⟨by decide, by decide, by decide, _, rfl⟩

/-- A fetch from 0xC000 fails. -/
theorem witness_FailedFetchIsReported :
    memRead (fixture { CoreState.reset with pc := 0xC000 } []).mem 0xC000 = .error (.number 0xC000) := by decide

/-- Opcode 0x20 of FIX is a placeholder (V44-4). -/
theorem witness_PlaceholderIsUnimplemented :
    ((fixture CoreState.reset [(0, 0x20)]).table.descriptor 0x20).kind = .placeholder ∧
      memRead (fixture CoreState.reset [(0, 0x20)]).mem 0 = .ok (0x20, fmem [(0, 0x20)]) := by decide +kernel

/-- A behaviour's end, as `runBehaviour` gives it on FMEM with the given bytes. -/
abbrev Ends (width : Option Nat) (p : Script) (c : CoreState) (cells : List Host.Cell) (r : BehResult) : Prop :=
  runBehaviour width (.script p) (.numbers []) c (fmem cells) = r

/-- A counter within the width. -/
theorem not_passes {k n : Nat} (h : n ≤ 2 ^ k - 1) : ¬Passes (some k) n := by
  rintro ⟨k', hk, hp⟩; cases hk; omega

/-- V44-1's step, and the same where the counter T ends at the maximum of a width of 3 bits, which is 7. -/
theorem witness_StepCommitsTheBehaviour :
    memRead (fixture { CoreState.reset with clk := ⟨0, 3⟩ } []).mem 0 = .ok (0x00, fmem []) ∧
      (fix.descriptor 0x00).kind = .implemented (.script fNop) ∧
      Ends (some 3) fNop { CoreState.reset with clk := ⟨0, 3⟩ } []
        (.done { CoreState.reset with pc := 1, clk := ⟨1, 7⟩ } (fmem []) 1 4) ∧
      ¬Passes (some 3) 1 ∧ ¬Passes (some 3) 7 ∧ ¬Passes none 7 :=
  ⟨by decide, by decide +kernel, by decide +kernel, not_passes (by decide), not_passes (by decide),
    by rintro ⟨k, h, -⟩; cases h⟩

theorem witness_OpcodeCommitsTheBehaviour :
    (fix.descriptor 0x03).kind = .implemented (.script fStb) ∧
      Ends (some 4) fStb { CoreState.reset with bc := ⟨0x5A, 0⟩, hl := ⟨0xD0, 0⟩ } [(0, 0x03)]
        (.done { CoreState.reset with bc := ⟨0x5A, 0⟩, hl := ⟨0xD0, 0⟩, pc := 1, clk := ⟨2, 8⟩ }
          (fmem [(0, 0x03), (0xD000, 0x5A)]) 2 8) ∧
      ¬Passes (some 4) 2 ∧ ¬Passes (some 4) 8 :=
  ⟨by decide +kernel, by decide +kernel, not_passes (by decide), not_passes (by decide)⟩

/-- V44-9. -/
theorem witness_BehaviourMemoryErrorIsUndone :
    memRead (fmem [(0, 0x03)]) 0 = .ok (0x03, fmem [(0, 0x03)]) ∧
      (fix.descriptor 0x03).kind = .implemented (.script fStb) ∧
      Ends none fStb { CoreState.reset with bc := ⟨0x77, 0⟩, hl := ⟨0xC0, 0⟩ } [(0, 0x03)] (.memError (.number 0xC000)) := by
  decide +kernel

/-- F_BAD returns (1, 4) and never advances the clock. -/
theorem witness_BrokenClockContractFails :
    memRead (fmem [(0, 0x05)]) 0 = .ok (0x05, fmem [(0, 0x05)]) ∧
      (fix.descriptor 0x05).kind = .implemented (.script fBad) ∧
      Ends none fBad CoreState.reset [(0, 0x05)] (.done { CoreState.reset with pc := 1 } (fmem [(0, 0x05)]) 1 4) ∧
      CoreState.reset.clk ≠ ⟨CoreState.reset.clk.m + 1, CoreState.reset.clk.t + 4⟩ := by decide +kernel

/-- A table with one behaviour for every opcode. -/
def everywhere (p : Script) : Table := .given (Vector.replicate 256 (scripted p))

theorem everywhere_kind (p : Script) (opc : Byte) : ((everywhere p).descriptor opc).kind = .implemented (.script p) := by
  simp [everywhere, Table.descriptor, scripted]

/-- First clause: T would reach 8 at a width of 3. Second clause: a behaviour that issues nothing, from a counter that
is already past the maximum, each counter in turn. -/
theorem witness_OverflowingBehaviourFails :
    memRead (fmem []) 0 = .ok (0x00, fmem []) ∧ (fix.descriptor 0x00).kind = .implemented (.script fNop) ∧
      Ends (some 3) fNop { CoreState.reset with clk := ⟨0, 4⟩ } [] .overflow ∧
      ((everywhere (charge 0 0)).descriptor 0x00).kind = .implemented (.script (charge 0 0)) ∧
      Ends (some 3) (.finish (.lit 0) (.lit 0)) { CoreState.reset with clk := ⟨8, 0⟩ } []
        (.done { CoreState.reset with clk := ⟨8, 0⟩ } (fmem []) 0 0) ∧ Passes (some 3) 8 :=
  ⟨by decide, by decide +kernel, by decide +kernel, everywhere_kind .., by decide +kernel, 3, rfl, by decide⟩

theorem witness_StepIsTheFetchedOpcode :
    (fmem [(0, 0x04)]).isMmio 0 = false ∧ memRead (fmem [(0, 0x04)]) 0 = .ok (0x04, fmem [(0, 0x04)]) := by decide

/-- V44-4: the placeholder 0x20. -/
theorem witness_FailedStepFailsAgain : ∃ t, exec .step (fixture CoreState.reset [(0, 0x20)]) = .next t ∧
    t.responses = (fixture CoreState.reset [(0, 0x20)]).responses ++ [.unimplementedOpcode 0x20 0] ∧
    Failure (.unimplementedOpcode 0x20 0) :=
  ⟨_, rfl, by decide +kernel, fun v h => by cases h⟩

/-- At PC = 0xFFFF, where PC wraps; and at an address of read-only memory. -/
theorem witness_StepOverScriptedNop :
    (fixture { CoreState.reset with pc := 0xFFFF } []).clockWidth = none ∧ (fmem []).isMmio 0xFFFF = false ∧
      memRead (fmem []) 0xFFFF = .ok (0x00, fmem []) ∧
      (fix.descriptor 0x00).kind = .implemented (.script nopScript) ∧
      memRead ⟨[], [], [⟨0, 1, .readOnly (.number 0)⟩], 0⟩ 0 =
        .ok (0x00, ⟨[], [], [⟨0, 1, .readOnly (.number 0)⟩], 0⟩) := by decide +kernel

theorem witness_BehavioursFollowTheSameRules :
    (Instr.clkadd .m 1).isAccessor = true ∧ commandWord? (.clkadd .m 1) = some 0xC00001 := by decide

theorem witness_NestedStepIsIllegalAndGoesOn : ((0xD00000 : CommandWord) = 0xD00000 ∨ Illegal 0xD00000) ∧
    ((0xF12345 : CommandWord) = 0xD00000 ∨ Illegal 0xF12345) := ⟨.inl rfl, .inr (.inl (.inr (by decide)))⟩

/-- M at 65535 and a width of 16; a script that overflows only at its third command; V44-15, and the same with T. -/
theorem witness_BehaviourClkaddOverflowEndsTheStep :
    (commandWord? (.clkadd .m 1) = some 0xC00001 ∧
      Passes (some 16) (counter .m { CoreState.reset with clk := ⟨65535, 0⟩ } + (1 : Word).toNat)) ∧
    (memRead (fmem []) 0 = .ok (0x00, fmem []) ∧ (fix.descriptor 0x00).kind = .implemented (.script fNop) ∧
      runScript (some 3) (.numbers []) fNop [] { CoreState.reset with clk := ⟨6, 4⟩ } (fmem []) = .overflow) ∧
    (fix.descriptor 0x00).kind = .implemented (.script nopScript) ∧ Passes (some 16) (65535 + 1) ∧
      Passes (some 3) (4 + 4) :=
  ⟨⟨by decide, 16, rfl, by decide⟩, ⟨by decide, by decide +kernel, by decide +kernel⟩, by decide +kernel,
    ⟨16, rfl, by decide⟩, 3, rfl, by decide⟩

theorem witness_BehaviourReadsSeeItsWrites :
    ((fmem []).isMmio 0xFFFF = false ∧ memWrite (fmem []) 0xFFFF 0x5A = .ok (fmem [(0xFFFF, 0x5A)])) ∧
      commandWord? (.wr8 .f 0xA5) = some 0x1E00A5 ∧ commandWord? (.rd8 .f) = some 0x0E0000 := by decide

theorem witness_OrdinaryMemoryLaws : (fmem []).isMmio 0x0000 = false ∧
    memRead (fmem []) 0x0000 = .ok (0x00, fmem []) ∧
    memWrite (fmem []) 0x0000 0x5A = .ok (fmem [(0x0000, 0x5A)]) ∧
    (0xC000 : Word) ≠ 0x0000 ∧ (fmem []).isMmio 0xC000 = false := by decide

theorem witness_FetchSeesEarlierWrite : (fixture CoreState.reset []).mem.isMmio 0xFFFF = false ∧
    memWrite (fixture CoreState.reset []).mem 0xFFFF 0x04 = .ok (fmem [(0xFFFF, 0x04)]) := by decide

theorem witness_AccessesKeepCanonicalForm : (fmem [(0, 0x03)]).wf = true ∧
    memRead (fmem [(0, 0x03)]) 0 = .ok (0x03, fmem [(0, 0x03)]) ∧
    memWrite (fmem [(0, 0x03)]) 0 0x00 = .ok (fmem []) := by decide

/-- A placeholder's STEP fails; an illegal word fails. -/
theorem witness_FailureChangesNothing :
    (∃ t, exec .step (fixture CoreState.reset [(0, 0x20)]) = .next t ∧
      t.responses = (fixture CoreState.reset [(0, 0x20)]).responses ++ [.unimplementedOpcode 0x20 0] ∧
      Failure (.unimplementedOpcode 0x20 0)) ∧
    ∃ t, step { withCore busy with inputs := [.command 0xF12345] } = .next t ∧
      t.responses = (withCore busy).responses ++ [.illegalCommand 0xF12345] ∧ Failure (.illegalCommand 0xF12345) :=
  ⟨⟨_, rfl, by decide +kernel, fun v h => by cases h⟩, _, rfl, by decide, fun v h => by cases h⟩

theorem witness_UnboundedClockNeverOverflows :
    (withCore busy).clockWidth = none ∧ ∃ t, exec (.clkadd .m 0xFFFF) (withCore busy) = .next t := ⟨rfl, _, rfl⟩

theorem witness_ConfigurationIsFixed : ((withCore busy).withCommands [0xD00000]).processorLives = true ∧
    ∃ t, step ((withCore busy).withCommands [0xD00000]) = .next t := ⟨by decide, _, rfl⟩

theorem witness_StepKeepsTheInvariant : ((withCore busy).withCommands [0xC2FFFF]).Inv ∧
    ∃ t, step ((withCore busy).withCommands [0xC2FFFF]) = .next t := ⟨by decide, _, rfl⟩

theorem witness_ClockIsMonotone : noConstruction ((withCore busy).withCommands [0xC2FFFF, 0xD00000]) ∧
    ∃ t, Host.Core.run Sys2Proof.core 1 ((withCore busy).withCommands [0xC2FFFF, 0xD00000]) = .next t :=
  ⟨by intro i hi ds hd; subst hd; simp [State.withCommands] at hi, _, rfl⟩

theorem witness_RunsNeverStop : tablesComplete [.command 0xF12345, .construct (List.replicate 256 blank)] = true := by
  simp only [tablesComplete, List.length_replicate]; decide

end Sys2Proof.Tests
end

section
/-! SUPPORT. The interrupt-enable flag apart from the rest of the block (10_state.md R30): replacing it commutes with
every accessor that does not name it. -/

namespace Sys2Proof.Machine

open Sys2Proof Sys2Proof.Spec

/-- The block with another interrupt-enable flag. -/
def CoreState.setIme (c : CoreState) (b : Bool) : CoreState := { c with ime := b }

/-- The reply with another interrupt-enable flag in its block. -/
def CoreReply.setIme (r : CoreReply) (b : Bool) : CoreReply := { r with core := r.core.setIme b }

section setIme
variable (c : CoreState) (b : Bool)

@[simp] theorem CoreState.setIme_clk : (c.setIme b).clk = c.clk := rfl

@[simp] theorem CoreState.setIme_pair (p : PairId) : (c.setIme b).pair p = c.pair p := by cases p <;> rfl

@[simp] theorem CoreState.setIme_readR8 (id : R8Id) : (c.setIme b).readR8 id = c.readR8 id := by
  simp [CoreState.readR8]

@[simp] theorem CoreState.setIme_readR16 (id : R16Id) : (c.setIme b).readR16 id = c.readR16 id := by
  cases id <;> rfl

theorem CoreState.setIme_setPair (p : PairId) (v : RegPair) :
    (c.setIme b).setPair p v = (c.setPair p v).setIme b := by cases p <;> rfl

theorem CoreState.setIme_writeR8 (id : R8Id) (v : Byte) :
    (c.setIme b).writeR8 id v = (c.writeR8 id v).setIme b := by
  simp [CoreState.writeR8, CoreState.setIme_setPair]

theorem CoreState.setIme_writeR16 (id : R16Id) (v : Word) :
    (c.setIme b).writeR16 id v = (c.writeR16 id v).setIme b := by
  cases id <;> rfl

@[simp] theorem CoreState.setIme_answer (v : Value) : (c.setIme b).answer v = (c.answer v).setIme b := rfl
@[simp] theorem CoreState.setIme_done : (c.setIme b).done = c.done.setIme b := rfl

/-- Whether CLKADD overflows does not depend on the flag. -/
theorem coreClkadd_setIme (width : Option Nat) (sel : ClockSel) (amount : Word) :
    coreClkadd width sel amount (c.setIme b) = (coreClkadd width sel amount c).setIme b := by
  unfold coreClkadd
  rw [CoreState.setIme_clk]
  split <;> rfl

end setIme

/-- An accessor other than RDIME and WRIME replies the same whatever the flag, and keeps it. -/
theorem accessorReply?_setIme (width : Option Nat) {i : Instr} (c : CoreState) (b : Bool)
    (hrd : i ≠ .rdime) (hwr : ∀ state, i ≠ .wrime state) :
    accessorReply? width i (c.setIme b) = (accessorReply? width i c).map (·.setIme b) := by
  cases i with
  | rdime => exact absurd rfl hrd
  | wrime state => exact absurd rfl (hwr state)
  | rd8 id => simp [accessorReply?, coreRd8]
  | wr8 id v => simp [accessorReply?, coreWr8, CoreState.setIme_writeR8]
  | rd16 id => simp [accessorReply?, coreRd16]
  | wr16 id v => simp [accessorReply?, coreWr16, CoreState.setIme_writeR16]
  | getc => simp [accessorReply?, coreGetc]
  | setc state => simp [accessorReply?, coreSetc, CoreState.setIme_writeR8]
  | clkadd sel amount => exact congrArg some (coreClkadd_setIme c b width sel amount)
  | rdpc | rdsp | incpc amount | clkrd sel | step | opcode byte => rfl

/-- What an accessor replies is what the host's command does (30_encoding.md R85). -/
theorem exec_of_accessorReply? {i : Instr} {s : State} {r : CoreReply}
    (h : accessorReply? s.clockWidth i s.core = some r) : exec i s = .next (s.finish r) := by
  have hacc : i.isAccessor = true := by rw [← accessorReply?_isSome s.clockWidth i s.core, h]; rfl
  obtain ⟨r', hr', hexec⟩ | ⟨hno, -⟩ | ⟨hno, -⟩ := exec_cases i s
  · rwa [Option.some.inj (h.symm.trans hr')]
  · exact absurd (hacc.symm.trans hno) (by decide)
  · exact absurd (hacc.symm.trans hno) (by decide)

/-- Replacing the flag before or after a command is completed is the same. -/
theorem finish_withIme (s : State) (r : CoreReply) (b : Bool) :
    (withIme s b).finish (r.setIme b) = withIme (s.finish r) b := rfl

/-- Settles O33: the accessor's reply from the other flag is its reply with the flag replaced. -/
theorem imeChangesNoOtherAccessor : Obligations.ImeChangesNoOtherAccessor := by
  intro i s t b hacc hrd hwr hexec
  obtain ⟨r, hr⟩ := Option.isSome_iff_exists.1 ((accessorReply?_isSome s.clockWidth i s.core).trans hacc)
  obtain rfl : s.finish r = t := Host.Outcome.next.inj ((exec_of_accessorReply? hr).symm.trans hexec)
  have hr' : accessorReply? s.clockWidth i (s.core.setIme b) = some (r.setIme b) := by
    rw [accessorReply?_setIme s.clockWidth s.core b hrd hwr, hr, Option.map_some]
  rw [← finish_withIme]
  exact exec_of_accessorReply? (s := withIme s b) hr'

end Sys2Proof.Machine
end

section
/-! SUPPORT. The instruction table, CLOCK_WIDTH and the memory map are fixed in the life of a processor
(10_state.md R35; 44_dispatcher.md R162). -/

namespace Sys2Proof.Machine

open Sys2Proof Sys2Proof.Spec

/-- No instruction changes table, CLOCK_WIDTH or memory map: a failure and an accessor leave them, and a behaviour's
results replace only block and memory, whose map every access keeps. -/
theorem exec_configuration {i : Instr} {s t : State} (h : exec i s = .next t) :
    t.table = s.table ∧ t.clockWidth = s.clockWidth ∧ t.mem.map = s.mem.map := by
  obtain ⟨r, -, hexec⟩ | ⟨-, f, -, hexec⟩ |
    ⟨-, opc, fetched, b, c, mem, dm, dt, hfetch, -, hrun, -, -, -, hexec⟩ := exec_cases i s
  · obtain rfl := Host.Outcome.next.inj (hexec.symm.trans h)
    exact ⟨rfl, rfl, rfl⟩
  · obtain rfl := Host.Outcome.next.inj (hexec.symm.trans h)
    exact ⟨rfl, rfl, rfl⟩
  · obtain rfl := Host.Outcome.next.inj (hexec.symm.trans h)
    have hfetched : fetched.map = s.mem.map := by
      obtain rfl | hread := hfetch
      · rfl
      · exact memRead_map hread
    exact ⟨rfl, rfl, (runBehaviour_map hrun).trans hfetched⟩

/-- Settles O55, by the kinds of host action; a construction is excluded by the hypothesis. -/
theorem configurationIsFixed : Obligations.ConfigurationIsFixed := by
  intro s t hlives hstep
  obtain ⟨-, rfl⟩ | ⟨w, rest, r, -, -, rfl⟩ | ⟨w, rest, i, -, -, hexec⟩ | ⟨e, rest, -, rfl⟩ |
    ⟨ds, rest, hinputs, -⟩ := step_cases hstep
  · exact ⟨rfl, rfl, rfl⟩
  · exact ⟨rfl, rfl, rfl⟩
  · exact exec_configuration (s := { s with inputs := rest }) hexec
  · exact ⟨rfl, rfl, Mem.applyEffect_map s.mem e⟩
  · simp [State.processorLives, HostInput.keepsProcessor, hinputs] at hlives

end Sys2Proof.Machine
end

section
/-! SUPPORT. The state at reset (10_state.md R40, R41; 43_clock.md R142). -/

namespace Sys2Proof.Machine

open Sys2Proof Sys2Proof.Spec

/-- The composition of two zero lanes, and so each wide register at reset, is zero. -/
theorem composed_zero : composed ⟨0, 0⟩ = 0 := rfl

/-- Both counters fit the unbounded width, whatever their values. -/
@[simp] theorem Clock.fits_none (k : Clock) : k.fits none = true := by simp [Clock.fits]

/-- Settles O11, identifier by identifier. -/
theorem resetValuesOfTheBlock : Obligations.ResetValuesOfTheBlock := by
  refine ⟨fun id => ?_, fun id => ?_, rfl, rfl, rfl⟩
  · cases id <;> rfl
  · cases id with
    | pc | sp => rfl
    | bc | de | hl | af => exact composed_zero

/-- Settles O56: reset's memory lists nothing, and its clock is unbounded. -/
theorem resetMeetsTheInvariant : Obligations.ResetMeetsTheInvariant :=
  ⟨reset_mem_wf, Clock.fits_none State.reset.core.clk⟩

end Sys2Proof.Machine
end

section
/-! SUPPORT. Memory: the laws at ordinary addresses (20_memory.md R54), a fetch after a write (R65), and the canonical
form with the counters' bound as an invariant of every step (R53; 43_clock.md R142). -/

namespace Sys2Proof.Machine

open Sys2Proof

/-! ## The invariant of every step -/

/-- The counters of a new processor fit every CLOCK_WIDTH. -/
theorem reset_clk_fits (width : Option Nat) : CoreState.reset.clk.fits width = true := by
  cases width <;> simp [CoreState.reset, Clock.fits, fitsWidth]

/-- The memory a behaviour starts from is in canonical form, whether the opcode was fetched or given. -/
theorem fetched_wf {mem fetched : Mem} {a : Word} {opc : Byte}
    (h : fetched = mem ∨ memRead mem a = .ok (opc, fetched)) (hw : mem.wf = true) : fetched.wf = true := by
  obtain rfl | hread := h
  · exact hw
  · exact memRead_wf hread hw

/-- No instruction breaks the invariant: an accessor keeps the clock's bound and leaves memory, a failure leaves both,
and a behaviour's results are committed only within the bound, over memory that only accesses have changed. -/
theorem exec_inv {i : Instr} {s t : State} (h : exec i s = .next t) (hinv : s.Inv) : t.Inv := by
  obtain ⟨hwf, hfits⟩ := hinv
  obtain ⟨r, hreply, hexec⟩ | ⟨-, f, -, hexec⟩ |
    ⟨-, opc, fetched, b, c, mem, dm, dt, hfetch, -, hrun, -, -, hfits', hexec⟩ := exec_cases i s
  · obtain rfl := Host.Outcome.next.inj (hexec.symm.trans h)
    exact ⟨hwf, accessorReply?_fits hreply hfits⟩
  · obtain rfl := Host.Outcome.next.inj (hexec.symm.trans h)
    exact ⟨hwf, hfits⟩
  · obtain rfl := Host.Outcome.next.inj (hexec.symm.trans h)
    exact ⟨runBehaviour_wf hrun (fetched_wf hfetch hwf), hfits'⟩

/-- A construction keeps memory and CLOCK_WIDTH and starts both counters at zero. -/
theorem constructState_inv {s t : State} {ds : List Descriptor} (h : constructState s ds = .next t)
    (hinv : s.Inv) : t.Inv := by
  obtain ⟨table, -, -, hnew⟩ | ⟨-, hfault⟩ := constructState_cases s ds
  · obtain rfl := Host.Outcome.next.inj (hnew.symm.trans h)
    exact ⟨hinv.1, reset_clk_fits s.clockWidth⟩
  · cases hfault.symm.trans h

/-- Settles O57, by the kinds of host action; a legal command word is `exec_inv`. -/
theorem stepKeepsTheInvariant : Obligations.StepKeepsTheInvariant := by
  intro s t hinv hstep
  obtain ⟨-, rfl⟩ | ⟨w, rest, r, -, -, rfl⟩ | ⟨w, rest, i, -, -, hexec⟩ | ⟨e, rest, -, rfl⟩ |
    ⟨ds, rest, -, hnew⟩ := step_cases hstep
  · exact hinv
  · exact hinv
  · exact exec_inv (s := { s with inputs := rest }) hexec hinv
  · exact ⟨Mem.wf_applyEffect hinv.1 e, hinv.2⟩
  · exact constructState_inv (s := { s with inputs := rest }) hnew hinv

/-! ## Accesses -/

/-- A read outside MMIO_SET that succeeds leaves the memory as it was (R54). -/
theorem memRead_mem_eq {mem mem' : Mem} {a : Word} {v : Byte} (hm : mem.isMmio a = false)
    (h : memRead mem a = .ok (v, mem')) : mem' = mem := by
  obtain ⟨-, -, hmem⟩ | ⟨hi, -⟩ := memRead_ok h
  · exact hmem
  · exact absurd (hi.symm.trans hm) (by decide)

/-- Settles O49: each law of R54 is a lemma about the accesses. -/
theorem ordinaryMemoryLaws : Obligations.OrdinaryMemoryLaws :=
  fun _ _ _ _ hm => ⟨memRead_mem_eq hm, memRead_of_memWrite hm,
    fun h _ hb hmb => memRead_of_memWrite_ne hm h hb hmb⟩

/-- Settles O51: a read and a write each keep the canonical form. -/
theorem accessesKeepCanonicalForm : Obligations.AccessesKeepCanonicalForm :=
  fun _ _ _ _ hw => ⟨fun h => memRead_wf h hw, fun h => memWrite_wf h hw⟩

/-! ## Fetch after write -/

/-- A step whose fetch succeeds resolves the byte it found, on the memory as the fetch left it (44 R150, R152). -/
theorem runStep_of_fetch {s : State} {opc : Byte} {fetched : Mem}
    (h : memRead s.mem s.core.pc = .ok (opc, fetched)) : runStep s = runOpcode s opc fetched := by
  rw [runStep, h]

/-- Where the fetch leaves the memory as it was, STEP is the meaning of the opcode it finds. -/
theorem exec_step_of_fetch {s : State} {opc : Byte} (h : memRead s.mem s.core.pc = .ok (opc, s.mem)) :
    exec .step s = exec (.opcode opc) s :=
  congrArg Host.Outcome.next (runStep_of_fetch h)

/-- Settles O50: the fetch is a read at the written address, which finds the byte and changes nothing. -/
theorem fetchSeesEarlierWrite : Obligations.FetchSeesEarlierWrite := by
  intro s m a v hm hwrite
  have hfetch : memRead m a = .ok (v, m) := memRead_of_memWrite hm hwrite
  exact exec_step_of_fetch (s := { s with mem := m, core := { s.core with pc := a } }) hfetch

end Sys2Proof.Machine
end

section
/-! SUPPORT. Decoding and encoding are inverse (30_encoding.md R74 to R79): a command's fields are legal and assemble
to it, and legal fields assemble to a command that is encoded with exactly those fields. -/

namespace Sys2Proof

/-! ## From the instruction -/

/-- Every instruction's encoding is legal: the family of Laws/PerInstr for an instruction not yet named. -/
theorem legalEncoding : ∀ i : Instr, Laws.LegalEncoding.Statement i
  | .rd8 id => Laws.LegalEncoding.rd8 id
  | .wr8 id v => Laws.LegalEncoding.wr8 id v
  | .rd16 id => Laws.LegalEncoding.rd16 id
  | .wr16 id v => Laws.LegalEncoding.wr16 id v
  | .rdpc => Laws.LegalEncoding.rdpc
  | .rdsp => Laws.LegalEncoding.rdsp
  | .incpc amount => Laws.LegalEncoding.incpc amount
  | .getc => Laws.LegalEncoding.getc
  | .setc state => Laws.LegalEncoding.setc state
  | .rdime => Laws.LegalEncoding.rdime
  | .wrime state => Laws.LegalEncoding.wrime state
  | .clkrd sel => Laws.LegalEncoding.clkrd sel
  | .clkadd sel amount => Laws.LegalEncoding.clkadd sel amount
  | .step => Laws.LegalEncoding.step
  | .opcode b => Laws.LegalEncoding.opcode b

/-- The word determines the fields. -/
theorem wordOf_injective {f g : Fields} (h : wordOf f = wordOf g) : f = g := by
  rw [← fieldsOf_wordOf f, h, fieldsOf_wordOf]

/-- `imm[7:0]` of a byte operand is the byte (R75). -/
@[simp] theorem extractLsb'_setWidth_byte (v : Byte) : (v.setWidth 16).extractLsb' 0 8 = v := by
  apply BitVec.eq_of_toNat_eq
  have := v.isLt
  simp only [BitVec.extractLsb'_toNat, BitVec.toNat_setWidth, Nat.shiftRight_zero]
  omega

/-- A boolean operand is read back from its bit (R75). -/
@[simp] theorem bitOf_beq_one (state : Bool) : (bitOf state == 1#1) = state := by cases state <;> rfl

/-- A command whose fields assemble to it is decoded from its word, since that word is legal. -/
theorem decode_encode_of_assemble {i : Instr} {f : Fields} (he : encode i = commandBits f)
    (ha : assemble f = .ok i) (hc : i.isCommand = true) : decode (encode i) = .ok i := by
  obtain ⟨g, hg, hlegal⟩ := (legalEncoding i).1 hc
  obtain rfl : f = g := wordOf_injective (InstrBits.command.inj (he.symm.trans hg))
  rw [he]
  exact (decodeCommand_eq_ok_iff _ _).2 (by simpa only [fieldsOf_wordOf] using ⟨hlegal, ha⟩)

/-- Decoding an encoded instruction gives it back: each command's fields assemble to it, operand by operand. -/
theorem decode_encode (i : Instr) : decode (encode i) = .ok i := by
  cases i with
  | rd8 | wr8 | rd16 | wr16 | setc | wrime | clkrd | clkadd =>
    exact decode_encode_of_assemble rfl (by simp [assemble]) rfl
  | rdpc | rdsp | incpc | getc | rdime | step => exact decode_encode_of_assemble rfl rfl rfl
  | opcode b => rfl

/-- Settles O1. -/
theorem decodeOfEncodeIsTheInstruction : Obligations.DecodeOfEncodeIsTheInstruction := decode_encode

/-! ## From the bits -/

/-- The fields are legal: their code has a row, every must-be-zero field is 0 and the identifier names a register. -/
theorem Fields.illegal?_eq_none_iff (f : Fields) : f.illegal? = none ↔
    ∃ r, commandRows[f.op.toNat]? = some r ∧ r.zeroOk f = true ∧ r.idOk f = true := by
  unfold Fields.illegal?
  cases commandRows[f.op.toNat]? with
  | none => simp
  | some r => cases hz : r.zeroOk f <;> cases hi : r.idOk f <;> simp [hz, hi]

/-- Every must-be-zero field is 0, field by field. -/
theorem CommandRow.zeroOk_iff (r : CommandRow) (f : Fields) : r.zeroOk f = true ↔
    r.sel.zeroOk f.sel = true ∧ (r.bIsOperand = true ∨ f.b = 0) ∧ r.imm.zeroOk f.imm = true := by
  simp [CommandRow.zeroOk, and_assoc]

/-- A byte operand whose high byte is 0 is all of `imm` (R76). -/
theorem setWidth_extractLsb'_byte {imm : BitVec 16} (h : imm.extractLsb' 8 8 = 0) :
    (imm.extractLsb' 0 8).setWidth 16 = imm := by
  have h' : (imm.extractLsb' 8 8).toNat = 0 := congrArg BitVec.toNat h
  apply BitVec.eq_of_toNat_eq
  have := imm.isLt
  simp only [BitVec.extractLsb'_toNat, BitVec.toNat_setWidth, Nat.shiftRight_eq_div_pow] at h' ⊢
  omega

/-- A bit is the encoding of the boolean it is read as. -/
theorem bitOf_beq_eq : ∀ b : BitVec 1, bitOf (b == 1#1) = b := by decide

/-- The `id16` codes below 6 name registers (R72). -/
theorem R16Id.exists_ofCode : ∀ k : BitVec 3, k.toNat < 6 → ∃ id, R16Id.ofCode? k = some id ∧ id.code = k := by decide

/-- A command's bits are those of given fields where its operands fill them and the other fields are 0. -/
theorem commandBits_congr {op : BitVec 4} {sel sel' : BitVec 3} {b b' : BitVec 1} {imm imm' : BitVec 16}
    (hsel : sel = sel') (hb : b = b') (himm : imm = imm') :
    commandBits ⟨op, sel, b, imm⟩ = commandBits ⟨op, sel', b', imm'⟩ := by
  rw [hsel, hb, himm]

/-- Legal fields assemble to a command that is encoded with those fields: one case for each row of R74, in its order;
the codes 0xE and 0xF have none. -/
theorem assemble_of_legal {f : Fields} (h : f.illegal? = none) :
    ∃ i, assemble f = .ok i ∧ encode i = commandBits f := by
  obtain ⟨r, hrow, hzero, hid⟩ := f.illegal?_eq_none_iff.1 h
  obtain ⟨hsel, hb, himm⟩ := (r.zeroOk_iff f).1 hzero
  obtain ⟨⟨op⟩, sel, b, imm⟩ := f
  have hb' (hr : r.bIsOperand = false) : 0 = b := (hb.resolve_left (by simp [hr])).symm
  fin_cases op <;> cases hrow
  · exact ⟨.rd8 (R8Id.ofCode sel), rfl, commandBits_congr (R8Id.code_ofCode sel) (hb' rfl) (eq_of_beq himm).symm⟩
  · exact ⟨.wr8 (R8Id.ofCode sel) (imm.extractLsb' 0 8), rfl,
      commandBits_congr (R8Id.code_ofCode sel) (hb' rfl) (setWidth_extractLsb'_byte (eq_of_beq himm))⟩
  · obtain ⟨id, hcode, hid⟩ := R16Id.exists_ofCode sel (of_decide_eq_true hid)
    exact ⟨.rd16 id, by simp [assemble, hcode], commandBits_congr hid (hb' rfl) (eq_of_beq himm).symm⟩
  · obtain ⟨id, hcode, hid⟩ := R16Id.exists_ofCode sel (of_decide_eq_true hid)
    exact ⟨.wr16 id imm, by simp [assemble, hcode], commandBits_congr hid (hb' rfl) rfl⟩
  · exact ⟨.rdpc, rfl, commandBits_congr (eq_of_beq hsel).symm (hb' rfl) (eq_of_beq himm).symm⟩
  · exact ⟨.rdsp, rfl, commandBits_congr (eq_of_beq hsel).symm (hb' rfl) (eq_of_beq himm).symm⟩
  · exact ⟨.incpc imm, rfl, commandBits_congr (eq_of_beq hsel).symm (hb' rfl) rfl⟩
  · exact ⟨.getc, rfl, commandBits_congr (eq_of_beq hsel).symm (hb' rfl) (eq_of_beq himm).symm⟩
  · exact ⟨.setc (b == 1), rfl, commandBits_congr (eq_of_beq hsel).symm (bitOf_beq_eq b) (eq_of_beq himm).symm⟩
  · exact ⟨.rdime, rfl, commandBits_congr (eq_of_beq hsel).symm (hb' rfl) (eq_of_beq himm).symm⟩
  · exact ⟨.wrime (b == 1), rfl, commandBits_congr (eq_of_beq hsel).symm (bitOf_beq_eq b) (eq_of_beq himm).symm⟩
  · exact ⟨.clkrd (ClockSel.ofCode sel), rfl,
      commandBits_congr (ClockSel.code_ofCode sel (eq_of_beq hsel)) (hb' rfl) (eq_of_beq himm).symm⟩
  · exact ⟨.clkadd (ClockSel.ofCode sel) imm, rfl,
      commandBits_congr (ClockSel.code_ofCode sel (eq_of_beq hsel)) (hb' rfl) rfl⟩
  · exact ⟨.step, rfl, commandBits_congr (eq_of_beq hsel).symm (hb' rfl) (eq_of_beq himm).symm⟩

/-- Settles O2: a legal word is the word of its fields, and those are the fields its command is encoded with. -/
theorem encodeOfDecodeIsTheBits : Obligations.EncodeOfDecodeIsTheBits := by
  rintro (w | b) i hdecode
  · obtain ⟨hlegal, hassemble⟩ := (decodeCommand_eq_ok_iff w i).1 hdecode
    obtain ⟨j, hj, hencode⟩ := assemble_of_legal hlegal
    obtain rfl : i = j := Except.ok.inj (hassemble.symm.trans hj)
    rw [hencode, commandBits, wordOf_fieldsOf]
  · obtain rfl : Instr.opcode b = i := Except.ok.inj hdecode
    rfl

end Sys2Proof
end

section
/-! SUPPORT. The masks and matches of 30_encoding.md R76 are the must-be-zero fields of the rows of R74, and the three
cases of R77 are those of the decoder. -/

namespace Sys2Proof

open Sys2Proof.Spec

/-! ## Masks -/

/-- The must-be-zero bits of `sel`. -/
def SelUse.mask : SelUse → BitVec 3
  | .zero => 7
  | .id8 => 0
  | .id16 => 0
  | .counter => 6

/-- The must-be-zero bits of `imm`. -/
def ImmUse.mask : ImmUse → BitVec 16
  | .zero => BitVec.allOnes 16
  | .byte => 0xFF00
  | .word => 0

/-- The mask of a row: the code and every must-be-zero bit (R76). -/
def CommandRow.mask (r : CommandRow) : CommandWord :=
  wordOf ⟨BitVec.allOnes 4, r.sel.mask, if r.bIsOperand then 0 else BitVec.allOnes 1, r.imm.mask⟩

/-- The table of R76 is that of R74, row by row: its masks are the rows' masks, its matches the codes alone. -/
theorem maskTable_getElem? : ∀ op : BitVec 4, maskTable[op.toNat]? =
    commandRows[op.toNat]?.map fun r => (r.mask, wordOf ⟨op, 0, 0, 0⟩) := by decide

/-- A word's high byte is masked out by 0xFF00. -/
theorem and_highByte_eq_zero_iff (x : BitVec 16) : x &&& 0xFF00 = 0 ↔ x.extractLsb' 8 8 = 0 := by
  have hx : x = x.extractLsb' 8 8 ++ x.extractLsb' 0 8 := by
    rw [BitVec.extractLsb'_append_extractLsb'_eq_extractLsb' (by rfl)]
    exact BitVec.extractLsb'_eq_self.symm
  have hand : x &&& 0xFF00 = x.extractLsb' 8 8 ++ 0#8 := calc
    x &&& 0xFF00 = (x.extractLsb' 8 8 ++ x.extractLsb' 0 8) &&& (BitVec.allOnes 8 ++ 0#8) := by rw [← hx]; rfl
    _ = x.extractLsb' 8 8 ++ 0#8 := by rw [BitVec.and_append, BitVec.and_allOnes, BitVec.and_zero]
  rw [hand]
  exact BitVec.append_left_inj (s₂ := 0) (0#8)

theorem SelUse.and_mask_eq_zero_iff (u : SelUse) : ∀ sel : BitVec 3, sel &&& u.mask = 0 ↔ u.zeroOk sel = true := by
  cases u <;> decide

theorem ImmUse.and_mask_eq_zero_iff (u : ImmUse) (imm : BitVec 16) : imm &&& u.mask = 0 ↔ u.zeroOk imm = true := by
  cases u with
  | zero => rw [ImmUse.mask, BitVec.and_allOnes, ImmUse.zeroOk, beq_iff_eq]
  | byte => rw [ImmUse.mask, and_highByte_eq_zero_iff, ImmUse.zeroOk, beq_iff_eq]
  | word => simp [ImmUse.mask, ImmUse.zeroOk]

/-- A word satisfies the mask and match of its code's row exactly where every must-be-zero field is 0. -/
theorem CommandRow.and_mask_iff (r : CommandRow) (w : CommandWord) :
    w &&& r.mask = wordOf ⟨(fieldsOf w).op, 0, 0, 0⟩ ↔ r.zeroOk (fieldsOf w) = true := by
  rw [mask_iff, r.zeroOk_iff, CommandRow.mask, fieldsOf_wordOf, fieldsOf_wordOf]
  dsimp only
  rw [SelUse.and_mask_eq_zero_iff, ImmUse.and_mask_eq_zero_iff, BitVec.and_allOnes]
  cases r.bIsOperand with
  | false => simp [BitVec.and_allOnes, -BitVec.reduceAllOnes]
  | true => simp
/-! ## The three cases of R77 -/

theorem opField_eq (w : CommandWord) : opField w = (fieldsOf w).op.toNat := (fieldsOf_toNat w).1.symm

theorem selField_eq (w : CommandWord) : selField w = (fieldsOf w).sel.toNat := (fieldsOf_toNat w).2.1.symm

/-- The codes without a row of R74 are the reserved ones. -/
theorem commandRows_getElem?_eq_none_iff : ∀ op : BitVec 4,
    commandRows[op.toNat]? = none ↔ op.toNat = 0xE ∨ op.toNat = 0xF := by decide

/-- The rows with an `id16` are those of RD16 and WR16. -/
theorem commandRows_sel_eq_id16_iff : ∀ op : BitVec 4,
    commandRows[op.toNat]?.map (·.sel) = some .id16 ↔ op.toNat = 0x2 ∨ op.toNat = 0x3 := by decide

/-- An identifier that names no register is an `id16` of 6 or 7 (R72). -/
theorem CommandRow.not_idOk_iff (r : CommandRow) (f : Fields) :
    ¬r.idOk f = true ↔ r.sel = .id16 ∧ (f.sel.toNat = 6 ∨ f.sel.toNat = 7) := by
  have := f.sel.isLt
  unfold CommandRow.idOk
  cases r.sel with
  | id16 => simp; omega
  | zero | id8 | counter => simp

/-- The cases of R77 are those the decoder's check rejects. -/
theorem illegal_iff (w : CommandWord) : Illegal w ↔ (fieldsOf w).illegal? ≠ none := by
  rw [Illegal, opField_eq, selField_eq, ← commandRows_getElem?_eq_none_iff, ← commandRows_sel_eq_id16_iff,
    maskTable_getElem?, Ne, Fields.illegal?_eq_none_iff]
  cases commandRows[(fieldsOf w).op.toNat]? with
  | none => simp
  | some r =>
    simp only [Option.map_some, Option.some.injEq, exists_eq_left', ne_eq, r.and_mask_iff, ← r.not_idOk_iff,
      reduceCtorEq, false_or]
    exact not_and_or.symm

/-- A word in one of the cases of R77 is decoded to an error. -/
theorem decodeCommand_of_illegal {w : CommandWord} (h : Illegal w) : ∃ r, decodeCommand w = .error r := by
  obtain ⟨r, hr⟩ := Option.ne_none_iff_exists'.1 ((illegal_iff w).1 h)
  exact ⟨r, by rw [decodeCommand, hr]⟩

/-- A word in none of them is decoded to a command. -/
theorem decodeCommand_of_not_illegal {w : CommandWord} (h : ¬Illegal w) : ∃ i, decodeCommand w = .ok i := by
  have hlegal : (fieldsOf w).illegal? = none := by simpa [illegal_iff] using h
  obtain ⟨i, hassemble, -⟩ := assemble_of_legal hlegal
  exact ⟨i, (decodeCommand_eq_ok_iff w i).2 ⟨hlegal, hassemble⟩⟩

end Sys2Proof
end

section
/-! SUPPORT. A command word at the host's interface (30_encoding.md R77, R79, R80, R84): one response for each word,
and a run over a queue of them. -/

namespace Sys2Proof.Machine

open Sys2Proof Sys2Proof.Spec

/-- The next step carries out the command word at the head of the queue. -/
theorem step_of_command {s : State} {w : CommandWord} {rest : List HostInput} (h : s.inputs = .command w :: rest) :
    step s = runCommand w { s with inputs := rest } := by
  rw [step, h]

theorem runCommand_of_error {w : CommandWord} {r : IllegalReason} (h : decodeCommand w = .error r) (s : State) :
    runCommand w s = .next (s.raise (.illegalCommand w)) := by
  rw [runCommand, h, rejectWord]

theorem runCommand_of_ok {w : CommandWord} {i : Instr} (h : decodeCommand w = .ok i) (s : State) :
    runCommand w s = exec i s := by
  rw [runCommand, h]

/-- Settles O7. -/
theorem stepRunsTheDecodedCommand : Obligations.StepRunsTheDecodedCommand :=
  fun s _ rest _ hinputs hdecode => (step_of_command hinputs).trans (runCommand_of_ok hdecode { s with inputs := rest })

/-- Settles O3: the word is decoded to an error or to a command, as it is in a case of R77 or in none. -/
theorem illegalWordsDoNotExecute : Obligations.IllegalWordsDoNotExecute := by
  intro w s rest
  refine ⟨fun hillegal => ?_, fun hlegal => ?_⟩
  · obtain ⟨r, hdecode⟩ := decodeCommand_of_illegal hillegal
    exact runCommand_of_error hdecode { s with inputs := rest }
  · obtain ⟨i, hdecode⟩ := decodeCommand_of_not_illegal hlegal
    exact ⟨i, hdecode, decodeCommand_isCommand hdecode, runCommand_of_ok hdecode { s with inputs := rest }⟩

/-! ## One response for each command -/

/-- Settles O52, by what exec can do: an accessor's reply, a failure, or a behaviour's cost is recorded. -/
theorem everyCommandReturnsOneResponse : Obligations.EveryCommandReturnsOneResponse := by
  intro i s
  obtain ⟨r, -, hexec⟩ | ⟨-, f, -, hexec⟩ | ⟨-, opc, fetched, b, c, mem, dm, dt, -, -, -, -, -, -, hexec⟩ :=
    exec_cases i s
  · exact ⟨_, r.response, hexec, rfl, rfl⟩
  · exact ⟨_, f, hexec, rfl, rfl⟩
  · exact ⟨_, .ok (.cost dm dt), hexec, rfl, rfl⟩

/-- A command word is answered with one response, legal or not, and the queue is kept. -/
theorem runCommand_answers (w : CommandWord) (s : State) :
    ∃ t r, runCommand w s = .next t ∧ t.responses = s.responses ++ [r] ∧ t.inputs = s.inputs := by
  obtain ⟨_, -, hrun⟩ | ⟨i, -, hrun⟩ := runCommand_cases w s
  · exact ⟨_, .illegalCommand w, hrun, rfl, rfl⟩
  · rw [hrun]
    exact everyCommandReturnsOneResponse i s

/-- A state whose pending actions are the command words has them queued. -/
theorem eq_withCommands {s : State} {ws : List CommandWord} (h : s.inputs = ws.map .command) :
    s = s.withCommands ws := by
  rw [State.withCommands, ← h]

/-- A step with command words queued answers the first and leaves the others queued. -/
theorem step_withCommands_cons (w : CommandWord) (ws : List CommandWord) (s : State) :
    ∃ (t : State) (r : Response), step (s.withCommands (w :: ws)) = .next (t.withCommands ws) ∧
      t.responses = s.responses ++ [r] := by
  obtain ⟨t, r, hrun, hresponses, hinputs⟩ := runCommand_answers w (s.withCommands ws)
  exact ⟨t, r, by rw [← eq_withCommands hinputs]; exact hrun, hresponses⟩

/-- Settles O60, by induction on the queue: the first step answers the first word. -/
theorem everyIssuedWordIsAnswered : Obligations.EveryIssuedWordIsAnswered := by
  intro ws
  induction ws with
  | nil => exact fun s => ⟨s.withCommands [], [], rfl, rfl, (List.append_nil _).symm, rfl⟩
  | cons w ws ih =>
    intro s
    obtain ⟨u, r, hstep, hfirst⟩ := step_withCommands_cons w ws s
    obtain ⟨t, rs, hrun, hinputs, hrest, hlength⟩ := ih u
    refine ⟨t, r :: rs, (run_succ_of_step hstep).trans hrun, hinputs, ?_, congrArg Nat.succ hlength⟩
    rw [hrest, hfirst, List.append_assoc, List.singleton_append]

end Sys2Proof.Machine
end

section
/-! SUPPORT. A command word a behaviour issues (30_encoding.md R85): an accessor replies as it does to the host, and
any other word is IllegalCommand. -/

namespace Sys2Proof.Machine

open Sys2Proof Sys2Proof.Spec

/-- A command is decoded from its word. -/
theorem decodeCommand_of_commandWord? {i : Instr} {w : CommandWord} (h : commandWord? i = some w) :
    decodeCommand w = .ok i := by
  unfold commandWord? at h
  split at h
  · next v hencode =>
    obtain rfl := Option.some.inj h
    exact (congrArg decode hencode).symm.trans (decode_encode i)
  · cases h

/-- An accessor's word gives its reply. -/
theorem issueWord_of_accessorReply? {width : Option Nat} {i : Instr} {w : CommandWord} {c : CoreState} {r : CoreReply}
    (hdecode : decodeCommand w = .ok i) (hreply : accessorReply? width i c = some r) : issueWord width w c = r := by
  rw [issueWord, hdecode]
  dsimp only
  rw [hreply]

theorem issueWord_of_error {w : CommandWord} {r : IllegalReason} (h : decodeCommand w = .error r)
    (width : Option Nat) (c : CoreState) : issueWord width w c = ⟨c, .illegalCommand w⟩ := by
  rw [issueWord, h]

/-- A legal word that is no accessor's is answered IllegalCommand, as an illegal one is. -/
theorem issueWord_of_no_reply {width : Option Nat} {i : Instr} {w : CommandWord} {c : CoreState}
    (hdecode : decodeCommand w = .ok i) (hreply : accessorReply? width i c = none) :
    issueWord width w c = ⟨c, .illegalCommand w⟩ := by
  rw [issueWord, hdecode]
  dsimp only
  rw [hreply]

theorem commandWord?_step : commandWord? .step = some 0xD00000 := by decide

/-- Settles O45: word and command give one reply, which the host's command completes. -/
theorem behavioursFollowTheSameRules : Obligations.BehavioursFollowTheSameRules := by
  intro i w s hacc hword
  obtain ⟨r, hreply⟩ := Option.isSome_iff_exists.1 ((accessorReply?_isSome s.clockWidth i s.core).trans hacc)
  rw [issueWord_of_accessorReply? (decodeCommand_of_commandWord? hword) hreply]
  exact exec_of_accessorReply? hreply

/-- A script whose word is answered IllegalCommand goes on with status code 3 and the word received. -/
theorem runScript_command_of_illegal {width : Option Nat} {w : CommandWord} {c : CoreState}
    (h : issueWord width w c = ⟨c, .illegalCommand w⟩) (operands : Meta) (next : Script) (env : List Nat) (mem : Mem) :
    runScript width operands (.command (.lit w.toNat) next) env c mem =
      runScript width operands next (w.toNat :: 3 :: env) c mem := by
  simp [runScript, evalExpr, h, Response.payload, Response.status]

/-- Settles O46. -/
theorem nestedStepIsIllegalAndGoesOn : Obligations.NestedStepIsIllegalAndGoesOn := by
  intro width operands next env c mem w hw
  have hissue : issueWord width w c = ⟨c, .illegalCommand w⟩ := by
    obtain rfl | hillegal := hw
    · exact issueWord_of_no_reply (decodeCommand_of_commandWord? commandWord?_step) rfl
    · obtain ⟨r, hdecode⟩ := decodeCommand_of_illegal hillegal
      exact issueWord_of_error hdecode width c
  exact ⟨hissue, runScript_command_of_illegal hissue operands next env mem⟩

end Sys2Proof.Machine
end

section
/-! SUPPORT. Facts of 30_encoding.md that hold case by case: words of the tables (R74, R76), status codes (R81) and
assembler lines (R86). -/

namespace Sys2Proof.Machine

open Sys2Proof

/-- Settles O4: each word is decoded field by field. -/
theorem writtenOutWordsDecode : Obligations.WrittenOutWordsDecode := by
  unfold Obligations.WrittenOutWordsDecode
  decide

/-- No response has status code 6 or 7 (R81). -/
theorem Response.status_ne (r : Response) : r.status ≠ 6 ∧ r.status ≠ 7 := by
  cases r <;> simp [Response.status]

/-- Settles O5: the code of each response, and the two codes of none. -/
theorem statusCodesOfResponses : Obligations.StatusCodesOfResponses :=
  ⟨fun _ => rfl, fun _ _ => rfl, fun _ => rfl, fun _ => rfl, fun _ _ => rfl, rfl, Response.status_ne⟩

/-- Settles O6: each line is read character by character. -/
theorem assemblerLinesGiveTheirWords : Obligations.AssemblerLinesGiveTheirWords := by
  unfold Obligations.AssemblerLinesGiveTheirWords
  decide

end Sys2Proof.Machine
end

section
/-! SUPPORT. Register pairs (40_register_pair.md): a pair and its two lanes are one storage, so composition and
decomposition are inverse (R102, R103, R105). -/

namespace Sys2Proof.Machine

open Sys2Proof Sys2Proof.Spec

/-! ## What the accessors answer -/

/-- RD8 answers the lane and changes nothing (42 R121). -/
theorem answers_rd8 (id : R8Id) (s : State) : Answers (.rd8 id) s s.core (.ok (.byte (s.core.readR8 id))) := rfl

/-- RD16 answers the wide register and changes nothing (42 R123). -/
theorem answers_rd16 (id : R16Id) (s : State) : Answers (.rd16 id) s s.core (.ok (.word (s.core.readR16 id))) := rfl

/-- WR16 completes and writes the wide register alone (42 R125). -/
theorem answers_wr16 (id : R16Id) (v : Word) (s : State) :
    Answers (.wr16 id v) s (s.core.writeR16 id v) (.ok .none) := rfl

/-- An instruction has one next state: its block and the recorded response are those it is said to answer. -/
theorem answers_unique {i : Instr} {s t : State} {c : CoreState} {r r' : Response} (h : Answers i s c r)
    (hexec : exec i s = .next t) (hr : t.responses = s.responses ++ [r']) : t.core = c ∧ r = r' := by
  obtain rfl := Host.Outcome.next.inj (h.symm.trans hexec)
  exact ⟨rfl, List.singleton_inj.1 (List.append_cancel_left hr)⟩

/-! ## Lanes and wide values of the block -/

@[simp] theorem CoreState.setPair_pair (c : CoreState) (p : PairId) : c.setPair p (c.pair p) = c := by
  cases p <;> rfl

/-- A wide register written with its own value: the block is unchanged (R103). -/
@[simp] theorem CoreState.writeR16_readR16 (c : CoreState) (id : R16Id) : c.writeR16 id (c.readR16 id) = c := by
  cases id with
  | pc | sp => rfl
  | bc | de | hl | af => simp only [CoreState.readR16, CoreState.writeR16, RegPair.ofU16_asU16, CoreState.setPair_pair]

/-- The high lane is the most-significant byte of the pair's value (R100). -/
theorem RegPair.extractLsb'_high_asU16 (p : RegPair) : p.asU16.extractLsb' 8 8 = p.high :=
  congrArg RegPair.high p.ofU16_asU16

/-- The low lane is the least-significant byte of the pair's value (R100). -/
theorem RegPair.extractLsb'_low_asU16 (p : RegPair) : p.asU16.extractLsb' 0 8 = p.low :=
  congrArg RegPair.low p.ofU16_asU16

/-- Where `id` names pair `p` and `high` and `low` name its lanes, the two bytes of the wide value are the lanes. -/
theorem CoreState.extractLsb'_readR16 {c : CoreState} {p : PairId} {id : R16Id} {high low : R8Id}
    (hid : c.readR16 id = (c.pair p).asU16) (hhigh : placeOf high = (p, .high)) (hlow : placeOf low = (p, .low)) :
    (c.readR16 id).extractLsb' 8 8 = c.readR8 high ∧ (c.readR16 id).extractLsb' 0 8 = c.readR8 low := by
  rw [hid, CoreState.readR8, CoreState.readR8, hhigh, hlow]
  exact ⟨RegPair.extractLsb'_high_asU16 _, RegPair.extractLsb'_low_asU16 _⟩

/-! ## The laws -/

/-- Settles O25: the read finds what the write stored (`CoreState.readR16_writeR16`). -/
theorem pairRoundTrip : Obligations.PairRoundTrip := by
  intro id v s _ _
  refine ⟨_, answers_wr16 id v s, ?_⟩
  have hread := answers_rd16 id { s with core := s.core.writeR16 id v, responses := s.responses ++ [.ok .none] }
  rwa [CoreState.readR16_writeR16] at hread

/-- Settles O26: RD16 answers the register's own value, and writing that back changes nothing. -/
theorem pairInverse : Obligations.PairInverse := by
  intro id v s t _ _ hexec hresponses
  obtain ⟨hcore, hvalue⟩ := answers_unique (answers_rd16 id s) hexec hresponses
  obtain rfl : s.core.readR16 id = v := by simpa using hvalue
  have hwrite := answers_wr16 id (t.core.readR16 id) t
  rwa [CoreState.writeR16_readR16, hcore] at hwrite

/-- Settles O27, pair by pair. -/
theorem lanesArePartsOfTheirPair : Obligations.LanesArePartsOfTheirPair := by
  intro s id high low hmem
  have hlanes : (s.core.readR16 id).extractLsb' 8 8 = s.core.readR8 high ∧
      (s.core.readR16 id).extractLsb' 0 8 = s.core.readR8 low := by
    simp only [List.mem_cons, Prod.mk.injEq, List.not_mem_nil, or_false] at hmem
    obtain ⟨rfl, rfl, rfl⟩ | ⟨rfl, rfl, rfl⟩ | ⟨rfl, rfl, rfl⟩ | ⟨rfl, rfl, rfl⟩ := hmem
    · exact CoreState.extractLsb'_readR16 (p := .bc) rfl rfl rfl
    · exact CoreState.extractLsb'_readR16 (p := .de) rfl rfl rfl
    · exact CoreState.extractLsb'_readR16 (p := .hl) rfl rfl rfl
    · exact CoreState.extractLsb'_readR16 (p := .af) rfl rfl rfl
  obtain ⟨hhigh, hlow⟩ := hlanes
  refine ⟨s.core.readR16 id, answers_rd16 id s, ?_, ?_⟩
  · rw [hhigh]; exact answers_rd8 high s
  · rw [hlow]; exact answers_rd8 low s

end Sys2Proof.Machine
end

section
/-! SUPPORT. What a word with a given command code does when the host issues it (30_encoding.md R74, R76, R77), said
once for every code: it remains to say which instruction the fields assemble to. -/

namespace Sys2Proof.Machine

open Sys2Proof Sys2Proof.Spec

/-- `b` of a word (R73). -/
theorem bField_eq (w : CommandWord) : bField w = ((fieldsOf w).b == 1) := by
  have hbit : (fieldsOf w).b = bitOf (bField w) := by
    ext i hi
    obtain rfl : i = 0 := by omega
    simp [fieldsOf, bitOf, bField]
  rw [hbit]
  exact (bitOf_beq_one (bField w)).symm

/-- Where the identifier names no register, the fields assemble to nothing: the code is RD16's or WR16's, and `sel`
is 6 or 7 (R72). -/
theorem toOption_assemble_of_not_idOk {f : Fields} {r : CommandRow} (hrow : commandRows[f.op.toNat]? = some r)
    (hid : r.idOk f = false) : (assemble f).toOption = none := by
  obtain ⟨hid16, hsel⟩ := (r.not_idOk_iff f).1 (by simp [hid])
  have hnone : R16Id.ofCode? f.sel = none := by
    obtain hsel | hsel := hsel <;> simp [R16Id.ofCode?, hsel]
  have hop : f.op.toNat = 0x2 ∨ f.op.toNat = 0x3 := (commandRows_sel_eq_id16_iff f.op).1 (by simp [hrow, hid16])
  obtain hop | hop := hop <;> simp [assemble, hop, hnone, Except.toOption]

/-- A word decodes to what its fields assemble to, where every must-be-zero field of its row is 0, and else to
nothing. -/
theorem toOption_decodeCommand {w : CommandWord} {r : CommandRow}
    (hrow : commandRows[(fieldsOf w).op.toNat]? = some r) :
    (decodeCommand w).toOption = if r.zeroOk (fieldsOf w) = true then (assemble (fieldsOf w)).toOption else none := by
  unfold decodeCommand Fields.illegal?
  rw [hrow]
  cases hzero : r.zeroOk (fieldsOf w) with
  | false => simp [hzero, Except.toOption]
  | true =>
    cases hid : r.idOk (fieldsOf w) with
    | false =>
      rw [toOption_assemble_of_not_idOk hrow hid]
      simp [hzero, hid, Except.toOption]
    | true => simp [hzero, hid]

/-- The rule of a command code, from its mask and match in R76 and what its words' fields assemble to. -/
theorem wordRule_of_assemble (op : BitVec 4) {mask mtch : CommandWord} {meaning : CommandWord → Option Instr}
    (hrow : maskTable[op.toNat]? = some (mask, mtch))
    (hmeaning : ∀ w, (fieldsOf w).op = op → (assemble (fieldsOf w)).toOption = meaning w) :
    WordRule op.toNat mask mtch meaning := by
  intro w s rest hop
  obtain rfl : (fieldsOf w).op = op := BitVec.eq_of_toNat_eq ((opField_eq w).symm.trans hop)
  rw [maskTable_getElem?, Option.map_eq_some_iff] at hrow
  obtain ⟨r, hrow, hmask⟩ := hrow
  obtain ⟨rfl, rfl⟩ := Prod.mk.inj hmask
  have hdecode := toOption_decodeCommand hrow
  simp only [← r.and_mask_iff, hmeaning w rfl] at hdecode
  obtain ⟨e, herror, hrun⟩ | ⟨i, hok, hrun⟩ := runCommand_cases w { s with inputs := rest }
  · rw [← hdecode, herror]
    exact hrun
  · rw [← hdecode, hok]
    exact hrun

end Sys2Proof.Machine
end

section
/-! SUPPORT. The carry helpers on the flag lane (41_flag_helpers.md R110 to R113): GETC answers bit 4 of whatever byte
F holds, so each law follows from what the write before it left there. -/

namespace Sys2Proof.Machine

open Sys2Proof Sys2Proof.Spec

/-! ## The carry of a byte -/

/-- Bit 4, by arithmetic on the byte (R110). -/
theorem carryOf_eq_decide (f : Byte) : carryOf f = decide (f.toNat / 16 % 2 = 1) :=
  Nat.testBit_eq_decide_div_mod_eq

/-- The byte SETC writes, as R111 says it. -/
theorem withCarry_eq (f : Byte) (state : Bool) :
    withCarry f state = (f &&& 0xEF) ||| (if state then 0x10 else 0x00) := rfl

/-! ## What the accessors answer -/

/-- GETC answers the carry of F and changes nothing (R110). -/
theorem answers_getc {s : State} {state : Bool} (h : carryOf s.core.af.low = state) :
    Answers .getc s s.core (.ok (.flag state)) := by
  subst h
  rfl

/-- SETC completes and writes F alone (R111). -/
theorem answers_setc (state : Bool) (s : State) :
    Answers (.setc state) s (s.core.writeR8 .f (withCarry (s.core.readR8 .f) state)) (.ok .none) := rfl

/-- WR8 completes and writes the lane alone (42 R122). -/
theorem answers_wr8 (id : R8Id) (v : Byte) (s : State) : Answers (.wr8 id v) s (s.core.writeR8 id v) (.ok .none) := rfl

/-! ## The laws -/

/-- Settles O19: with no operand, the word's code alone is assembled. -/
theorem getcReturnsBit4OfF : Obligations.GetcReturnsBit4OfF := by
  refine ⟨wordRule_of_assemble 0x7 rfl fun w hop => ?_, fun s => answers_getc (carryOf_eq_decide s.core.af.low)⟩
  simp [assemble, hop, Except.toOption]

/-- Settles O20: the operand is bit `b`, and the byte written is the one of `withCarry_eq`. -/
theorem setcWritesBit4OfF : Obligations.SetcWritesBit4OfF := by
  refine ⟨wordRule_of_assemble 0x8 rfl fun w hop => ?_, answers_setc⟩
  simp [assemble, hop, bField_eq, Except.toOption]

/-- Settles O29: F holds `withCarry` of its old byte, whose carry is the state and whose other bits are the old ones. -/
theorem flagIsolation : Obligations.FlagIsolation := by
  intro state s
  have hcarry := carryOf_withCarry state s.core.af.low
  exact ⟨_, answers_setc state s, withCarry_eq _ _, hcarry, fun k => getLsbD_withCarry_of_ne _ _,
    answers_getc hcarry⟩

/-- Settles O30: F holds the byte written, which for WR16 AF is the low byte of the value. -/
theorem getcSeesWritesOfTheFlagLane : Obligations.GetcSeesWritesOfTheFlagLane := by
  intro s
  refine ⟨fun v => ⟨_, answers_wr8 .f v s, rfl, answers_getc rfl⟩, fun v => ⟨_, answers_wr16 .af v s, rfl, ?_⟩⟩
  have hbit : (v.extractLsb' 0 8).getLsbD 4 = v.getLsbD 4 := by simp
  exact answers_getc hbit

end Sys2Proof.Machine
end

section
/-! SUPPORT. Which lanes an accessor leaves unchanged (42_register_file_accessors.md R124, R132; 41_flag_helpers.md
R114). -/

namespace Sys2Proof.Machine

open Sys2Proof Sys2Proof.Spec

/-- An accessor command the host issues completes with its reply. -/
theorem exists_accessorReply?_of_exec {i : Instr} {s t : State} (hacc : i.isAccessor = true)
    (hexec : exec i s = .next t) : ∃ r, accessorReply? s.clockWidth i s.core = some r ∧ t = s.finish r := by
  obtain ⟨r, hr⟩ := Option.isSome_iff_exists.1 ((accessorReply?_isSome s.clockWidth i s.core).trans hacc)
  exact ⟨r, hr, Host.Outcome.next.inj (hexec.symm.trans (exec_of_accessorReply? hr))⟩

/-- The lane an identifier names is the one RD8 reads (10_state.md R25). -/
theorem lane_eq_readR8 (id : R8Id) (c : CoreState) : lane id c = c.readR8 id := by cases id <;> rfl

/-- Writing a lane leaves every other lane (42 R124). -/
theorem lane_writeR8_of_ne (c : CoreState) {id other : R8Id} (v : Byte) (h : other ≠ id) :
    lane other (c.writeR8 id v) = lane other c := by
  rw [lane_eq_readR8, lane_eq_readR8, CoreState.readR8_writeR8_of_ne c v h]

/-- Writing a wide register leaves every lane but those of the pair written. -/
theorem lane_writeR16 (c : CoreState) {id : R16Id} {v : Word} {other : R8Id}
    (h : mayChangeLane (.wr16 id v) other = false) : lane other (c.writeR16 id v) = lane other c := by
  cases id <;> cases other <;> first | rfl | cases h

/-- An accessor leaves every lane it does not name (42 R132). -/
theorem accessorReply?_lane {width : Option Nat} {i : Instr} {c : CoreState} {r : CoreReply} {id : R8Id}
    (h : accessorReply? width i c = some r) (hlane : mayChangeLane i id = false) : lane id r.core = lane id c := by
  cases i with
  | wr8 written v =>
    cases h
    exact lane_writeR8_of_ne c v (by simpa [mayChangeLane] using hlane)
  | wr16 written v =>
    cases h
    exact lane_writeR16 c hlane
  | setc state =>
    cases h
    exact lane_writeR8_of_ne c _ (by simpa [mayChangeLane] using hlane)
  | clkadd sel amount =>
    obtain rfl : coreClkadd width sel amount c = r := by simpa [accessorReply?] using h
    obtain ⟨-, hr⟩ | ⟨-, hr⟩ := coreClkadd_cases width sel amount c
    · rw [hr]; cases id <;> rfl
    · rw [hr]
  | step | opcode b => cases h
  | rd8 | rd16 | rdpc | rdsp | getc | rdime | clkrd => cases h; rfl
  | incpc | wrime => cases h; cases id <;> rfl

/-- The accessors that may change the flag lane are those of R114. -/
theorem mayChangeLane_f (i : Instr) : mayChangeLane i .f = writesFlags i := by
  cases i with
  | wr8 id v => cases id <;> rfl
  | wr16 id v => cases id <;> rfl
  | _ => rfl

/-- Settles O31: the flag lane is one of those an accessor that does not name it leaves. -/
theorem noImplicitFlagUpdates : Obligations.NoImplicitFlagUpdates := by
  intro i s t hacc hflags hexec
  obtain ⟨r, hreply, rfl⟩ := exists_accessorReply?_of_exec hacc hexec
  exact accessorReply?_lane (id := .f) hreply ((mayChangeLane_f i).trans hflags)

end Sys2Proof.Machine
end

section
/-! SUPPORT. The words and the effects of the register file accessors (42_register_file_accessors.md R121 to R131): the
spec's tables, as the statements say them again, are the model's identifier codes and its reads and writes. -/

namespace Sys2Proof.Machine

open Sys2Proof Sys2Proof.Spec

/-! ## The operands of a word -/

/-- Every `id8` code names a register (R71). -/
theorem r8Codes_getElem? : ∀ sel : BitVec 3, r8Codes[sel.toNat]? = some (R8Id.ofCode sel) := by decide

/-- The `id16` codes 6 and 7 name no register (R72). -/
theorem r16Codes_getElem? : ∀ sel : BitVec 3, r16Codes[sel.toNat]? = R16Id.ofCode? sel := by decide

/-- `imm` of a word (R73). -/
theorem immField_eq (w : CommandWord) : immField w = (fieldsOf w).imm := rfl

/-- `imm[7:0]` of a word (R75). -/
theorem byteField_eq (w : CommandWord) : byteField w = (fieldsOf w).imm.extractLsb' 0 8 := by
  obtain ⟨-, -, -, himm⟩ := fieldsOf_toNat w
  apply BitVec.eq_of_toNat_eq
  rw [byteField, BitVec.toNat_ofNat, BitVec.extractLsb'_toNat, Nat.shiftRight_zero, himm]
  omega

/-! ## The storage of an identifier -/

/-- Writing a lane writes the storage its identifier names (10_state.md R25). -/
theorem withLane_eq_writeR8 (id : R8Id) (v : Byte) (c : CoreState) : withLane id v c = c.writeR8 id v := by
  cases id <;> rfl

/-- The composition of a pair, by arithmetic on its lanes (40_register_pair.md R100). -/
theorem composed_eq_asU16 (p : RegPair) : composed p = p.asU16 := calc
  composed p = BitVec.ofNat 16 (p.high ++ p.low).toNat := congrArg _ (append_toNat p.high p.low).symm
  _ = p.asU16 := (BitVec.ofNat_toNat 16 _).trans (BitVec.setWidth_eq _)

/-- The decomposition of a value, by arithmetic on it (40_register_pair.md R101). -/
theorem decomposed_eq_ofU16 (v : Word) : decomposed v = RegPair.ofU16 v := by
  simp only [decomposed, RegPair.ofU16, RegPair.mk.injEq]
  constructor <;> apply BitVec.eq_of_toNat_eq
  · simp only [BitVec.toNat_ofNat, BitVec.extractLsb'_toNat, Nat.shiftRight_eq_div_pow]
  · simp only [BitVec.toNat_ofNat, BitVec.extractLsb'_toNat, Nat.shiftRight_zero, Nat.mod_mod]

/-- The wide value an identifier names is the one RD16 reads (10_state.md R26). -/
theorem wide_eq_readR16 (id : R16Id) (c : CoreState) : wide id c = c.readR16 id := by
  cases id with
  | pc | sp => rfl
  | bc | de | hl | af => exact composed_eq_asU16 _

/-- Writing a wide register writes the storage its identifier names (10_state.md R26). -/
theorem withWide_eq_writeR16 (id : R16Id) (v : Word) (c : CoreState) : withWide id v c = c.writeR16 id v := by
  cases id with
  | pc | sp => rfl
  | bc | de | hl | af => rw [withWide, decomposed_eq_ofU16]; rfl

/-- Addition of words is the sum modulo 65536 (R128). -/
theorem add_eq_ofNat_mod (x y : Word) : x + y = BitVec.ofNat 16 ((x.toNat + y.toNat) % 65536) :=
  BitVec.eq_of_toNat_eq (by simp)

/-! ## The words of the codes 0x0 to 0x3 -/

theorem wordRule_rd8 : WordRule 0x0 0xF1FFFF 0x000000 (fun w => r8Codes[selField w]?.map .rd8) := by
  refine wordRule_of_assemble 0x0 rfl fun w hop => ?_
  simp [assemble, hop, selField_eq, r8Codes_getElem?, Except.toOption]

theorem wordRule_wr8 :
    WordRule 0x1 0xF1FF00 0x100000 (fun w => r8Codes[selField w]?.map fun id => .wr8 id (byteField w)) := by
  refine wordRule_of_assemble 0x1 rfl fun w hop => ?_
  simp [assemble, hop, selField_eq, r8Codes_getElem?, byteField_eq, Except.toOption]

theorem wordRule_rd16 : WordRule 0x2 0xF1FFFF 0x200000 (fun w => r16Codes[selField w]?.map .rd16) := by
  refine wordRule_of_assemble 0x2 rfl fun w hop => ?_
  rw [selField_eq, r16Codes_getElem?]
  cases hid : R16Id.ofCode? (fieldsOf w).sel <;> simp [assemble, hop, hid, Except.toOption]

theorem wordRule_wr16 :
    WordRule 0x3 0xF10000 0x300000 (fun w => r16Codes[selField w]?.map fun id => .wr16 id (immField w)) := by
  refine wordRule_of_assemble 0x3 rfl fun w hop => ?_
  rw [selField_eq, r16Codes_getElem?, immField_eq]
  cases hid : R16Id.ofCode? (fieldsOf w).sel <;> simp [assemble, hop, hid, Except.toOption]

/-! ## The accessors, whole -/

/-- Settles O12: the identifier is the one of its code, and its lane is the one read. -/
theorem rd8ReturnsTheLane : Obligations.Rd8ReturnsTheLane := by
  refine ⟨wordRule_rd8, fun id s => ?_⟩
  rw [lane_eq_readR8]
  exact answers_rd8 id s

/-- Settles O13: the operand is `imm[7:0]`, and the identifier's lane is the one written. -/
theorem wr8WritesTheLane : Obligations.Wr8WritesTheLane := by
  refine ⟨wordRule_wr8, fun id v s => ?_⟩
  rw [withLane_eq_writeR8]
  exact answers_wr8 id v s

/-- Settles O14: the codes 6 and 7 name nothing, and a pair's value is the composition of its lanes. -/
theorem rd16ReturnsTheWideRegister : Obligations.Rd16ReturnsTheWideRegister := by
  refine ⟨wordRule_rd16, fun id s => ?_⟩
  rw [wide_eq_readR16]
  exact answers_rd16 id s

/-- Settles O15: the codes 6 and 7 name nothing, and a pair is written with the decomposition of the value. -/
theorem wr16WritesTheWideRegister : Obligations.Wr16WritesTheWideRegister := by
  refine ⟨wordRule_wr16, fun id v s => ?_⟩
  rw [withWide_eq_writeR16]
  exact answers_wr16 id v s

/-- Settles O16: RD16 PC answers PC, and RDPC is the same command by another word. -/
theorem rdpcReturnsPc : Obligations.RdpcReturnsPc := by
  refine ⟨wordRule_of_assemble 0x4 rfl fun w hop => ?_, fun s => ⟨answers_rd16 .pc s, rfl⟩⟩
  simp [assemble, hop, Except.toOption]

/-- Settles O17: RD16 SP answers SP, and RDSP is the same command by another word. -/
theorem rdspReturnsSp : Obligations.RdspReturnsSp := by
  refine ⟨wordRule_of_assemble 0x5 rfl fun w hop => ?_, fun s => ⟨answers_rd16 .sp s, rfl⟩⟩
  simp [assemble, hop, Except.toOption]

/-- INCPC completes and writes PC alone (R128). -/
theorem answers_incpc (amount : Word) (s : State) :
    Answers (.incpc amount) s { s.core with pc := s.core.pc + amount } (.ok .none) := rfl

/-- Settles O18: the operand is `imm`, and the addition of words is the sum modulo 65536. -/
theorem incpcAddsModulo65536 : Obligations.IncpcAddsModulo65536 := by
  refine ⟨wordRule_of_assemble 0x6 rfl fun w hop => ?_, fun amount s => ?_⟩
  · simp [assemble, hop, immField_eq, Except.toOption]
  · rw [← add_eq_ofNat_mod]
    exact answers_incpc amount s

/-- RDIME answers the flag and changes nothing (R130). -/
theorem answers_rdime (s : State) : Answers .rdime s s.core (.ok (.flag s.core.ime)) := rfl

/-- WRIME completes and writes the flag alone (R131). -/
theorem answers_wrime (state : Bool) (s : State) :
    Answers (.wrime state) s { s.core with ime := state } (.ok .none) := rfl

/-- Settles O21: with no operand, the word's code alone is assembled. -/
theorem rdimeReturnsIme : Obligations.RdimeReturnsIme := by
  refine ⟨wordRule_of_assemble 0x9 rfl fun w hop => ?_, answers_rdime⟩
  simp [assemble, hop, Except.toOption]

/-- Settles O22: the operand is bit `b`. -/
theorem wrimeWritesIme : Obligations.WrimeWritesIme := by
  refine ⟨wordRule_of_assemble 0xA rfl fun w hop => ?_, answers_wrime⟩
  simp [assemble, hop, bField_eq, Except.toOption]

end Sys2Proof.Machine
end

section
/-! SUPPORT. The frame of the accessors (42_register_file_accessors.md R124, R132): what an accessor can do to the block,
said once, and what follows of each part of the block it does not name. -/

namespace Sys2Proof.Machine

open Sys2Proof Sys2Proof.Spec

/-! ## Lanes -/

/-- RD8 answers what the lane holds. -/
theorem answers_rd8_of_readR8_eq {id : R8Id} {s : State} {x : Byte} (h : s.core.readR8 id = x) :
    Answers (.rd8 id) s s.core (.ok (.byte x)) := by
  subst h
  exact answers_rd8 id s

/-- RD8 answers only what the lane holds. -/
theorem readR8_eq_of_answers {id : R8Id} {s : State} {x : Byte} (h : Answers (.rd8 id) s s.core (.ok (.byte x))) :
    s.core.readR8 id = x := by
  obtain ⟨-, hvalue⟩ := answers_unique (answers_rd8 id s) h rfl
  simpa using hvalue

/-- Settles O28: the block WR8 leaves holds the written byte in the one lane and the old byte in every other. -/
theorem laneIndependence : Obligations.LaneIndependence := by
  intro id other v x s hne hother
  refine ⟨_, answers_wr8 id v s, answers_rd8_of_readR8_eq (CoreState.readR8_writeR8 s.core id v), ?_⟩
  exact answers_rd8_of_readR8_eq
    ((CoreState.readR8_writeR8_of_ne s.core v hne).trans (readR8_eq_of_answers hother))

/-! ## The rest of the block -/

/-- Everything an accessor can do to the block: a read leaves it, as does a CLKADD that overflows; any other writes the
storage it names. -/
theorem accessorReply?_core {width : Option Nat} {i : Instr} {c : CoreState} {r : CoreReply}
    (h : accessorReply? width i c = some r) :
    r.core = c ∨
      (∃ id v, i = .wr8 id v ∧ r.core = c.writeR8 id v) ∨
      (∃ state, i = .setc state ∧ r.core = c.writeR8 .f (withCarry (c.readR8 .f) state)) ∨
      (∃ id v, i = .wr16 id v ∧ r.core = c.writeR16 id v) ∨
      (∃ amount, i = .incpc amount ∧ r.core = { c with pc := c.pc + amount }) ∨
      (∃ state, i = .wrime state ∧ r.core = { c with ime := state }) ∨
      ∃ sel amount, i = .clkadd sel amount ∧ r.core = { c with clk := c.clk.add sel amount.toNat } := by
  cases i with
  | wr8 id v => cases h; exact .inr (.inl ⟨id, v, rfl, rfl⟩)
  | setc state => cases h; exact .inr (.inr (.inl ⟨state, rfl, rfl⟩))
  | wr16 id v => cases h; exact .inr (.inr (.inr (.inl ⟨id, v, rfl, rfl⟩)))
  | incpc amount => cases h; exact .inr (.inr (.inr (.inr (.inl ⟨amount, rfl, rfl⟩))))
  | wrime state => cases h; exact .inr (.inr (.inr (.inr (.inr (.inl ⟨state, rfl, rfl⟩)))))
  | clkadd sel amount =>
    obtain rfl : coreClkadd width sel amount c = r := Option.some.inj h
    obtain ⟨-, hr⟩ | ⟨-, hr⟩ := coreClkadd_cases width sel amount c
    · exact .inr (.inr (.inr (.inr (.inr (.inr ⟨sel, amount, rfl, by rw [hr]⟩)))))
    · exact .inl (by rw [hr])
  | step | opcode b => cases h
  | rd8 | rd16 | rdpc | rdsp | getc | rdime | clkrd => cases h; exact .inl rfl

/-- WR16 leaves PC unless it names it. -/
theorem writeR16_pc (c : CoreState) {id : R16Id} {v : Word} (h : mayChangePc (.wr16 id v) = false) :
    (c.writeR16 id v).pc = c.pc :=
  CoreState.readR16_writeR16_of_ne (id' := .pc) c v (by rintro rfl; cases h)

/-- WR16 leaves SP unless it names it. -/
theorem writeR16_sp (c : CoreState) {id : R16Id} {v : Word} (h : mayChangeSp (.wr16 id v) = false) :
    (c.writeR16 id v).sp = c.sp :=
  CoreState.readR16_writeR16_of_ne (id' := .sp) c v (by rintro rfl; cases h)

/-- An accessor leaves PC, SP and the interrupt-enable flag where it does not name them. -/
theorem accessorReply?_frame {width : Option Nat} {i : Instr} {c : CoreState} {r : CoreReply}
    (h : accessorReply? width i c = some r) :
    (mayChangePc i = false → r.core.pc = c.pc) ∧ (mayChangeSp i = false → r.core.sp = c.sp) ∧
      (mayChangeIme i = false → r.core.ime = c.ime) := by
  obtain hr | ⟨id, v, -, hr⟩ | ⟨state, -, hr⟩ | ⟨id, v, rfl, hr⟩ | ⟨amount, rfl, hr⟩ | ⟨state, rfl, hr⟩ |
    ⟨sel, amount, -, hr⟩ := accessorReply?_core h <;> rw [hr]
  · exact ⟨fun _ => rfl, fun _ => rfl, fun _ => rfl⟩
  · exact ⟨fun _ => c.writeR8_pc id v, fun _ => c.writeR8_sp id v, fun _ => c.writeR8_ime id v⟩
  · exact ⟨fun _ => c.writeR8_pc _ _, fun _ => c.writeR8_sp _ _, fun _ => c.writeR8_ime _ _⟩
  · exact ⟨writeR16_pc c, writeR16_sp c, fun _ => c.writeR16_ime id v⟩
  · exact ⟨nofun, fun _ => rfl, fun _ => rfl⟩
  · exact ⟨fun _ => rfl, fun _ => rfl, nofun⟩
  · exact ⟨fun _ => rfl, fun _ => rfl, fun _ => rfl⟩

/-- The counter CLKRD selects, as the clock holds it (43_clock.md R140). -/
theorem counter_eq_get (sel : ClockSel) (c : CoreState) : counter sel c = c.clk.get sel := by cases sel <;> rfl

/-- An addition to one counter leaves the other (43_clock.md R141). -/
theorem Clock.get_add_of_ne (k : Clock) {sel other : ClockSel} (n : Nat) (h : other ≠ sel) :
    (k.add sel n).get other = k.get other := by
  cases sel <;> cases other
  · exact absurd rfl h
  · rfl
  · rfl
  · exact absurd rfl h

/-- An accessor leaves every counter but the one a CLKADD names. -/
theorem accessorReply?_counter {width : Option Nat} {i : Instr} {c : CoreState} {r : CoreReply} {sel : ClockSel}
    (h : accessorReply? width i c = some r) (hsel : mayChangeCounter i sel = false) :
    counter sel r.core = counter sel c := by
  rw [counter_eq_get, counter_eq_get]
  obtain hclk | ⟨added, amount, rfl, hclk, -⟩ := accessorReply?_clk h <;> rw [hclk]
  exact Clock.get_add_of_ne c.clk amount.toNat (by simpa [mayChangeCounter] using hsel)

/-- SETC leaves the seven other bits of F (41_flag_helpers.md R112). -/
theorem accessorReply?_setc_getLsbD {width : Option Nat} {state : Bool} {c : CoreState} {r : CoreReply} {k : Nat}
    (h : accessorReply? width (.setc state) c = some r) (hk : k ≠ 4) :
    r.core.af.low.getLsbD k = c.af.low.getLsbD k := by
  cases h
  exact getLsbD_withCarry_of_ne c.af.low state hk

/-- Settles O32: the accessor completes with its reply, which replaces the block alone. -/
theorem accessorFrame : Obligations.AccessorFrame := by
  intro i s t hacc hexec
  obtain ⟨r, hreply, rfl⟩ := exists_accessorReply?_of_exec hacc hexec
  obtain ⟨hpc, hsp, hime⟩ := accessorReply?_frame hreply
  refine ⟨fun id => accessorReply?_lane hreply, ?_, hpc, hsp, hime, fun sel => accessorReply?_counter hreply,
    fun _ => rfl, fun _ => rfl, rfl, rfl, rfl, rfl, rfl, r.response, rfl⟩
  rintro state rfl k hk
  exact accessorReply?_setc_getLsbD hreply hk

end Sys2Proof.Machine
end

section
/-! SUPPORT. The clock only advances (43_clock.md R143): no instruction and no host action but a construction decreases
a counter, so no run in the life of one processor does. -/

namespace Sys2Proof.Machine

open Sys2Proof Sys2Proof.Spec

/-- No instruction decreases a counter: an accessor at most adds to one, a failure leaves both, and a behaviour's
results are committed only with the old counters plus its cost. -/
theorem exec_clk_mono {i : Instr} {s t : State} (h : exec i s = .next t) :
    s.core.clk.m ≤ t.core.clk.m ∧ s.core.clk.t ≤ t.core.clk.t := by
  obtain ⟨r, hreply, hexec⟩ | ⟨-, f, -, hexec⟩ | ⟨-, opc, fetched, b, c, mem, dm, dt, -, -, -, hm, ht, -, hexec⟩ :=
    exec_cases i s <;> obtain rfl := Host.Outcome.next.inj (hexec.symm.trans h)
  · exact accessorReply?_clk_mono hreply
  · exact ⟨le_rfl, le_rfl⟩
  · exact ⟨hm ▸ Nat.le_add_right _ dm, ht ▸ Nat.le_add_right _ dt⟩

/-- No instruction changes the host's pending actions. -/
theorem exec_inputs {i : Instr} {s t : State} (h : exec i s = .next t) : t.inputs = s.inputs := by
  obtain ⟨u, r, hexec, -, hinputs⟩ := everyCommandReturnsOneResponse i s
  obtain rfl := Host.Outcome.next.inj (hexec.symm.trans h)
  exact hinputs

/-- What is left of the pending actions after the first constructs no processor either. -/
theorem noConstruction_of_tail {s t : State} {a : HostInput} (h : noConstruction s) (hs : s.inputs = a :: t.inputs) :
    noConstruction t :=
  fun i hi => h i (hs ▸ List.mem_cons_of_mem a hi)

/-- With no construction pending, a step decreases no counter and leaves none pending, by the kinds of host action. -/
theorem step_clk_mono {s t : State} (hno : noConstruction s) (h : step s = .next t) :
    noConstruction t ∧ s.core.clk.m ≤ t.core.clk.m ∧ s.core.clk.t ≤ t.core.clk.t := by
  obtain ⟨-, rfl⟩ | ⟨w, rest, r, hs, -, rfl⟩ | ⟨w, rest, i, hs, -, hexec⟩ | ⟨e, rest, hs, rfl⟩ |
    ⟨ds, rest, hs, -⟩ := step_cases h
  · exact ⟨hno, le_rfl, le_rfl⟩
  · exact ⟨noConstruction_of_tail hno hs, le_rfl, le_rfl⟩
  · have hrest : t.inputs = rest := exec_inputs hexec
    exact ⟨noConstruction_of_tail hno (hrest ▸ hs), exec_clk_mono (s := { s with inputs := rest }) hexec⟩
  · exact ⟨noConstruction_of_tail hno hs, le_rfl, le_rfl⟩
  · exact absurd rfl (hno (.construct ds) (hs ▸ List.mem_cons_self) ds)

/-- Settles O58, by induction on the number of steps. -/
theorem clockIsMonotone : Obligations.ClockIsMonotone := by
  intro n
  induction n with
  | zero =>
    intro s t _ hrun
    obtain rfl : s = t := Host.Outcome.next.inj hrun
    exact ⟨le_rfl, le_rfl⟩
  | succ n ih =>
    intro s t hno hrun
    obtain ⟨u, hstep, hrest⟩ := step_of_run_succ hrun
    obtain ⟨hno', hm, ht⟩ := step_clk_mono hno hstep
    obtain ⟨hm', ht'⟩ := ih u t hno' hrest
    exact ⟨hm.trans hm', ht.trans ht'⟩

end Sys2Proof.Machine
end

section
/-! SUPPORT. CLKRD and CLKADD (43_clock.md R140 to R142): the counters as the statements say them again are the clock's,
and a value passes CLOCK_WIDTH exactly where it does not fit. -/

namespace Sys2Proof.Machine

open Sys2Proof Sys2Proof.Spec

/-! ## Counters and their maximum -/

/-- A value passes a finite CLOCK_WIDTH exactly where it does not fit (R142). -/
theorem passes_iff (width : Option Nat) (n : Nat) : Passes width n ↔ fitsWidth width n = false := by
  cases width <;> simp [Passes, fitsWidth]

theorem not_passes_iff (width : Option Nat) (n : Nat) : ¬Passes width n ↔ fitsWidth width n = true := by
  rw [passes_iff, Bool.not_eq_false]

/-- Two counters do not fit exactly where one of them passes. -/
theorem Clock.fits_eq_false_iff (k : Clock) (width : Option Nat) :
    k.fits width = false ↔ Passes width k.m ∨ Passes width k.t := by
  rw [Clock.fits, Bool.and_eq_false_iff, passes_iff, passes_iff]

/-- The selected counter plus an amount, written back, is the clock's addition (R141). -/
theorem withCounter_counter_add (sel : ClockSel) (n : Nat) (c : CoreState) :
    withCounter sel (counter sel c + n) c = { c with clk := c.clk.add sel n } := by
  cases sel <;> rfl

/-- Where the sum does not fit, CLKADD overflows and leaves the block. -/
theorem coreClkadd_of_passes {width : Option Nat} {sel : ClockSel} {amount : Word} {c : CoreState}
    (h : Passes width (counter sel c + amount.toNat)) : coreClkadd width sel amount c = ⟨c, .clockOverflow⟩ := by
  rw [passes_iff, counter_eq_get] at h
  obtain ⟨hfits, -⟩ | ⟨-, hr⟩ := coreClkadd_cases width sel amount c
  · exact absurd (hfits.symm.trans h) (by decide)
  · exact hr

/-- Where the sum fits, CLKADD completes and changes the one counter. -/
theorem coreClkadd_of_not_passes {width : Option Nat} {sel : ClockSel} {amount : Word} {c : CoreState}
    (h : ¬Passes width (counter sel c + amount.toNat)) :
    coreClkadd width sel amount c = ⟨withCounter sel (counter sel c + amount.toNat) c, .ok .none⟩ := by
  rw [withCounter_counter_add]
  rw [not_passes_iff, counter_eq_get] at h
  obtain ⟨-, hr⟩ | ⟨hfits, -⟩ := coreClkadd_cases width sel amount c
  · exact hr
  · exact absurd (hfits.symm.trans h) (by decide)

/-! ## The commands -/

/-- The counter `sel[0]` selects (R75). -/
theorem clockCodes_getElem? : ∀ sel : BitVec 3, clockCodes[sel.toNat % 2]? = some (ClockSel.ofCode sel) := by decide

/-- CLKRD answers the counter and changes nothing (R140). -/
theorem answers_clkrd (sel : ClockSel) (s : State) :
    Answers (.clkrd sel) s s.core (.ok (.count (s.core.clk.get sel))) := rfl

/-- Settles O23: the operand is `sel[0]`, and its counter is the one read. -/
theorem clkrdReturnsTheCounter : Obligations.ClkrdReturnsTheCounter := by
  refine ⟨wordRule_of_assemble 0xB rfl fun w hop => ?_, fun sel s => ?_⟩
  · simp [assemble, hop, selField_eq, clockCodes_getElem?, Except.toOption]
  · rw [counter_eq_get]
    exact answers_clkrd sel s

/-- CLKADD completes with the reply of `coreClkadd` (R141). -/
theorem exec_clkadd_of_reply {sel : ClockSel} {amount : Word} {s : State} {r : CoreReply}
    (h : coreClkadd s.clockWidth sel amount s.core = r) : exec (.clkadd sel amount) s = .next (s.finish r) :=
  exec_of_accessorReply? (congrArg some h)

/-- Settles O24: the operands are `sel[0]` and `imm`, and the sum passes CLOCK_WIDTH or is the counter's new value. -/
theorem clkaddAddsOrOverflows : Obligations.ClkaddAddsOrOverflows := by
  refine ⟨wordRule_of_assemble 0xC rfl fun w hop => ?_, fun sel amount s => ⟨fun h => ?_, fun h => ?_⟩⟩
  · simp [assemble, hop, selField_eq, clockCodes_getElem?, immField_eq, Except.toOption]
  · exact exec_clkadd_of_reply (coreClkadd_of_passes h)
  · exact exec_clkadd_of_reply (coreClkadd_of_not_passes h)

end Sys2Proof.Machine
end

section
/-! SUPPORT. How a behaviour passes CLOCK_WIDTH in a step (43_clock.md R142; 60_exceptions.md R186, R189): by its own
CLKADD, which ends its script, or by a returned counter. -/

namespace Sys2Proof.Machine

open Sys2Proof Sys2Proof.Spec

/-! ## The step -/

/-- STEP over an implemented opcode is the commit of its behaviour's result (44_dispatcher.md R154, R157). -/
theorem exec_step_of_implemented {s : State} {opc : Byte} {fetched : Mem} {b : Behaviour} {res : BehResult}
    (hfetch : memRead s.mem s.core.pc = .ok (opc, fetched))
    (hkind : (s.table.descriptor opc).kind = .implemented b)
    (hrun : runBehaviour s.clockWidth b (s.table.descriptor opc).operands s.core fetched = res) :
    exec .step s = .next (commit s opc res) := by
  have hopcode : runOpcode s opc fetched = commit s opc res := by rw [runOpcode, hkind, ← hrun]
  exact congrArg Host.Outcome.next ((runStep_of_fetch hfetch).trans hopcode)

/-- A result that keeps the contract with a counter above the maximum is ClockOverflow (60_exceptions.md R189). -/
theorem commit_of_passes {s : State} {c : CoreState} {dm dt : Nat} (opc : Byte) (m : Mem)
    (hclk : c.clk = ⟨s.core.clk.m + dm, s.core.clk.t + dt⟩)
    (hpasses : Passes s.clockWidth c.clk.m ∨ Passes s.clockWidth c.clk.t) :
    commit s opc (.done c m dm dt) = s.raise .clockOverflow := by
  have hkeeps : keepsContract s.core.clk c.clk dm dt = true := decide_eq_true hclk
  have hfits : c.clk.fits s.clockWidth = false := (c.clk.fits_eq_false_iff s.clockWidth).2 hpasses
  simp [commit, hkeeps, hfits]

/-- Settles O41: either result is raised as ClockOverflow by the commit. -/
theorem overflowingBehaviourFails : Obligations.OverflowingBehaviourFails := by
  intro s opc fetched b hfetch hkind
  refine ⟨exec_step_of_implemented hfetch hkind, fun m c dm dt hrun hclk hpasses => ?_⟩
  exact (exec_step_of_implemented hfetch hkind hrun).trans
    (congrArg Host.Outcome.next (commit_of_passes opc m hclk hpasses))

/-! ## The script -/

/-- A script goes on where its word is answered ok, with status code 0 and the value received. -/
theorem runScript_command_of_ok {width : Option Nat} {w : CommandWord} {c c' : CoreState} {v : Value}
    (h : issueWord width w c = ⟨c', .ok v⟩) (operands : Meta) (next : Script) (env : List Nat) (mem : Mem) :
    runScript width operands (.command (.lit w.toNat) next) env c mem =
      runScript width operands next (v.toNat :: 0 :: env) c' mem := by
  simp [runScript, evalExpr, h, Response.payload, Response.status]

/-- A script ends where its CLKADD passes CLOCK_WIDTH, whatever would follow (43_clock.md R142). -/
theorem runScript_clkadd_of_passes {width : Option Nat} {sel : ClockSel} {amount : Word} {w : CommandWord}
    {c : CoreState} (hword : commandWord? (.clkadd sel amount) = some w)
    (hpasses : Passes width (counter sel c + amount.toNat)) (operands : Meta) (next : Script) (env : List Nat)
    (mem : Mem) : runScript width operands (.command (.lit w.toNat) next) env c mem = .overflow := by
  have hissue : issueWord width w c = ⟨c, .clockOverflow⟩ :=
    issueWord_of_accessorReply? (decodeCommand_of_commandWord? hword) (congrArg some (coreClkadd_of_passes hpasses))
  simp [runScript, evalExpr, hissue]

/-- A script goes on where its CLKADD does not pass CLOCK_WIDTH, with the one counter changed. -/
theorem runScript_clkadd_of_not_passes {width : Option Nat} {sel : ClockSel} {amount : Word} {w : CommandWord}
    {c : CoreState} (hword : commandWord? (.clkadd sel amount) = some w)
    (hpasses : ¬Passes width (counter sel c + amount.toNat)) (operands : Meta) (next : Script) (env : List Nat)
    (mem : Mem) : runScript width operands (.command (.lit w.toNat) next) env c mem =
      runScript width operands next (0 :: 0 :: env) (withCounter sel (counter sel c + amount.toNat) c) mem :=
  runScript_command_of_ok (issueWord_of_accessorReply? (decodeCommand_of_commandWord? hword)
    (congrArg some (coreClkadd_of_not_passes hpasses))) operands next env mem

/-- INCPC 1 in a script moves PC alone (42_register_file_accessors.md R128). -/
theorem runScript_incpc_one (width : Option Nat) (operands : Meta) (next : Script) (env : List Nat) (c : CoreState)
    (mem : Mem) : runScript width operands (.command (.lit 0x600001) next) env c mem =
      runScript width operands next (0 :: 0 :: env) { c with pc := c.pc + 1 } mem :=
  runScript_command_of_ok (w := 0x600001) (issueWord_of_accessorReply? (i := .incpc 1)
    (decodeCommand_of_commandWord? (by decide)) rfl) operands next env mem

/-- CLKADD M, 1 and then CLKADD T, 4 end a script where one of the two sums passes: the first leaves counter T. -/
theorem runScript_clkadds_of_passes {width : Option Nat} {c : CoreState}
    (h : Passes width (c.clk.m + 1) ∨ Passes width (c.clk.t + 4)) (operands : Meta) (next : Script) (env : List Nat)
    (mem : Mem) :
    runScript width operands (.command (.lit 0xC00001) (.command (.lit 0xC20004) next)) env c mem = .overflow := by
  by_cases hm : Passes width (c.clk.m + 1)
  · exact runScript_clkadd_of_passes (sel := .m) (amount := 1) (w := 0xC00001) (c := c) (by decide) hm ..
  · have ht : Passes width (c.clk.t + 4) := h.resolve_left hm
    exact (runScript_clkadd_of_not_passes (sel := .m) (amount := 1) (w := 0xC00001) (c := c) (by decide) hm ..).trans
      (runScript_clkadd_of_passes (sel := .t) (amount := 4) (w := 0xC20004)
        (c := withCounter .m (c.clk.m + 1) c) (by decide) ht ..)

/-- The scripted F_NOP ends in an overflow where one of its two sums passes: its INCPC leaves both counters. -/
theorem runScript_nopScript_of_passes {width : Option Nat} {c : CoreState}
    (h : Passes width (c.clk.m + 1) ∨ Passes width (c.clk.t + 4)) (operands : Meta) (env : List Nat) (mem : Mem) :
    runScript width operands nopScript env c mem = .overflow := by
  rw [nopScript, runScript_incpc_one]
  exact runScript_clkadds_of_passes (c := { c with pc := c.pc + 1 }) h ..

/-- An overflow of the fetched opcode's script is one of its behaviour, which the step raises. -/
theorem fails_step_of_script_overflow {s : State} {opc : Byte} {fetched : Mem} {body : Script}
    (hfetch : memRead s.mem s.core.pc = .ok (opc, fetched))
    (hkind : (s.table.descriptor opc).kind = .implemented (.script body))
    (hrun : runScript s.clockWidth (s.table.descriptor opc).operands body [] s.core fetched = .overflow) :
    Fails .step s .clockOverflow :=
  (overflowingBehaviourFails s opc fetched (.script body) hfetch hkind).1 hrun

/-- Settles O47: the CLKADD ends its script, the script's end fails the step, and F_NOP's script is one of those. -/
theorem behaviourClkaddOverflowEndsTheStep : Obligations.BehaviourClkaddOverflowEndsTheStep := by
  refine ⟨fun width operands next env c mem sel amount w hword hpasses => ?_,
    fun s opc fetched body hfetch hkind hrun => ?_, fun s opc fetched hfetch hkind hpasses => ?_⟩
  · exact runScript_clkadd_of_passes hword hpasses operands next env mem
  · exact fails_step_of_script_overflow hfetch hkind hrun
  · exact fails_step_of_script_overflow hfetch hkind (runScript_nopScript_of_passes hpasses _ [] fetched)

end Sys2Proof.Machine
end

section
/-! SUPPORT. With CLOCK_WIDTH unbounded nothing is answered ClockOverflow (43_clock.md R142; 60_exceptions.md R186). -/

namespace Sys2Proof.Machine

open Sys2Proof Sys2Proof.Spec

/-- One response is recorded, and it is not ClockOverflow. -/
def RecordsNoOverflow (s t : State) : Prop := ∃ r : Response, r ≠ .clockOverflow ∧ t.responses = s.responses ++ [r]

/-- A commit records ClockOverflow only for an overflow of the behaviour or a counter that does not fit, and every
counter fits the unbounded width. -/
theorem commit_recordsNoOverflow {s : State} {res : BehResult} (hwidth : s.clockWidth = none) (opc : Byte)
    (hres : res ≠ .overflow) : RecordsNoOverflow s (commit s opc res) := by
  cases res with
  | memError e => exact ⟨.invalidMemoryAccess e, nofun, rfl⟩
  | overflow => exact absurd rfl hres
  | done c mem dm dt =>
    have hfits : c.clk.fits s.clockWidth = true := hwidth ▸ c.clk.fits_none
    cases hkeeps : keepsContract s.core.clk c.clk dm dt with
    | false => exact ⟨.contractViolation opc s.core.pc, nofun, by simp [commit, hkeeps]⟩
    | true => exact ⟨.ok (.cost dm dt), nofun, by simp [commit, hkeeps, hfits]⟩

/-- A placeholder is answered UnimplementedOpcode; with the clock unbounded no behaviour overflows. -/
theorem runOpcode_recordsNoOverflow {s : State} (hwidth : s.clockWidth = none) (opc : Byte) (fetched : Mem) :
    RecordsNoOverflow s (runOpcode s opc fetched) := by
  unfold runOpcode
  split
  · exact ⟨.unimplementedOpcode opc s.core.pc, nofun, rfl⟩
  · next b _ =>
    have hrun := runBehaviour_unbounded b (s.table.descriptor opc).operands s.core fetched
    exact commit_recordsNoOverflow hwidth opc (hwidth ▸ hrun)

/-- A failed fetch is answered InvalidMemoryAccess; else the step is the fetched opcode's. -/
theorem runStep_recordsNoOverflow {s : State} (hwidth : s.clockWidth = none) : RecordsNoOverflow s (runStep s) := by
  unfold runStep
  split
  · next e _ => exact ⟨.invalidMemoryAccess e, nofun, rfl⟩
  · exact runOpcode_recordsNoOverflow hwidth _ _

/-- An accessor replies ClockOverflow only where a sum does not fit. -/
theorem accessorReply?_response_unbounded {i : Instr} {c : CoreState} {r : CoreReply}
    (h : accessorReply? none i c = some r) : r.response ≠ .clockOverflow := by
  obtain ⟨v, hv⟩ | ⟨-, sel, amount, -, hfits⟩ := accessorReply?_cases h
  · rw [hv]
    nofun
  · cases hfits

/-- No instruction records ClockOverflow: STEP and the opcode by their own lemmas, every other by its reply. -/
theorem exec_recordsNoOverflow {i : Instr} {s t : State} (hwidth : s.clockWidth = none) (h : exec i s = .next t) :
    RecordsNoOverflow s t := by
  cases hacc : i.isAccessor with
  | true =>
    obtain ⟨r, hreply, rfl⟩ := exists_accessorReply?_of_exec hacc h
    exact ⟨r.response, accessorReply?_response_unbounded (hwidth ▸ hreply), rfl⟩
  | false =>
    cases i with
    | step => exact Host.Outcome.next.inj h ▸ runStep_recordsNoOverflow hwidth
    | opcode opc => exact Host.Outcome.next.inj h ▸ runOpcode_recordsNoOverflow hwidth opc s.mem
    | _ => cases hacc

/-- Settles O54: the one response recorded is another. -/
theorem unboundedClockNeverOverflows : Obligations.UnboundedClockNeverOverflows := by
  intro i s t hwidth hexec hoverflow
  obtain ⟨r, hr, hresponses⟩ := exec_recordsNoOverflow hwidth hexec
  exact hr (List.singleton_inj.1 (List.append_cancel_left (hresponses.symm.trans hoverflow)))

end Sys2Proof.Machine
end

section
/-! SUPPORT. The host's actions between steps (44_dispatcher.md R161, R166, R167): a memory setup, a construction, and a
run over a queue of them. -/

namespace Sys2Proof.Machine

open Sys2Proof Sys2Proof.Spec

/-! ## One action -/

/-- With no action pending the block is idle (60_exceptions.md R199). -/
theorem step_of_nil {s : State} (h : s.inputs = []) : step s = .next s := by
  rw [step, h]

/-- The next step carries out the memory setup at the head of the queue. -/
theorem step_of_memory {s : State} {e : MemEffect} {rest : List HostInput} (h : s.inputs = .memory e :: rest) :
    step s = .next (setMemory { s with inputs := rest } e) := by
  rw [step, h]

/-- The next step carries out the construction at the head of the queue. -/
theorem step_of_construct {s : State} {ds : List Descriptor} {rest : List HostInput}
    (h : s.inputs = .construct ds :: rest) : step s = constructState { s with inputs := rest } ds := by
  rw [step, h]

/-! ## A run -/

/-- With only complete tables pending, a step answers a next state and leaves only complete tables pending, by the kinds
of host action. -/
theorem exists_step_of_tablesComplete {s : State} (h : tablesComplete s.inputs = true) :
    ∃ t, step s = .next t ∧ tablesComplete t.inputs = true := by
  match hs : s.inputs with
  | [] => exact ⟨s, step_of_nil hs, h⟩
  | .command w :: rest =>
    obtain ⟨t, -, hrun, -, hinputs⟩ := runCommand_answers w { s with inputs := rest }
    rw [hs] at h
    exact ⟨t, (step_of_command hs).trans hrun, hinputs ▸ h⟩
  | .memory e :: rest =>
    rw [hs] at h
    exact ⟨_, step_of_memory hs, h⟩
  | .construct ds :: rest =>
    rw [hs, tablesComplete, Bool.and_eq_true, beq_iff_eq] at h
    obtain ⟨hlength, hrest⟩ := h
    obtain ⟨table, -, -, hnew⟩ | ⟨hne, -⟩ := constructState_cases { s with inputs := rest } ds
    · exact ⟨_, (step_of_construct hs).trans hnew, hrest⟩
    · exact absurd hlength hne

/-- Settles O59, by induction on the number of steps. -/
theorem runsNeverStop : Obligations.RunsNeverStop := by
  intro n
  induction n with
  | zero => exact fun s _ => ⟨s, rfl⟩
  | succ n ih =>
    intro s hs
    obtain ⟨u, hstep, hu⟩ := exists_step_of_tablesComplete hs
    obtain ⟨t, hrun⟩ := ih u hu
    exact ⟨t, (run_succ_of_step hstep).trans hrun⟩

/-! ## Memory setup -/

/-- The last byte a setup names for an address is its content, unless the setup makes the address unreadable. -/
theorem content_applyEffect_of_poke {e : MemEffect} {a : Word} {v : Byte} {pre post : List (Word × Byte)} (mem : Mem)
    (hpokes : e.pokes = pre ++ (a, v) :: post) (hpost : ∀ p ∈ post, p.1 ≠ a)
    (hreadable : ∀ p ∈ e.unreadable, p.1 ≠ a) : (mem.applyEffect e).content a = .ok v := by
  rw [Mem.applyEffect_content, Mem.content_blocks_of_ne _ _ hreadable, hpokes, Mem.content_pokes_last hpost]

/-- An address a setup makes unreadable fails with the last payload named for it. -/
theorem content_applyEffect_of_unreadable {e : MemEffect} {a : Word} {err : MemErr} {pre post : List (Word × MemErr)}
    (mem : Mem) (hunreadable : e.unreadable = pre ++ (a, err) :: post) (hpost : ∀ p ∈ post, p.1 ≠ a) :
    (mem.applyEffect e).content a = .error err := by
  rw [Mem.applyEffect_content, hunreadable, Mem.content_blocks_last hpost]

/-- An address a setup does not name keeps its content. -/
theorem content_applyEffect_of_ne {e : MemEffect} {b : Word} (mem : Mem) (hpokes : ∀ p ∈ e.pokes, p.1 ≠ b)
    (hunreadable : ∀ p ∈ e.unreadable, p.1 ≠ b) : (mem.applyEffect e).content b = mem.content b := by
  rw [Mem.applyEffect_content, Mem.content_blocks_of_ne _ _ hunreadable, Mem.content_pokes_of_ne _ _ hpokes]

/-- Settles O9: the memory after the setup is the one of `Mem.applyEffect`. -/
theorem memorySetupChangesMemoryAlone : Obligations.MemorySetupChangesMemoryAlone := by
  intro s e rest hinputs
  exact ⟨s.mem.applyEffect e, step_of_memory hinputs, Mem.applyEffect_map s.mem e, Mem.applyEffect_device s.mem e,
    fun _ _ _ _ => content_applyEffect_of_poke s.mem, fun _ _ _ _ => content_applyEffect_of_unreadable s.mem,
    fun _ => content_applyEffect_of_ne s.mem⟩

/-! ## Construction -/

/-- The table made of a list holds its descriptors, each at its own opcode (R152, R161). -/
theorem getElem?_of_tableOf {ds : List Descriptor} {t : Table} (h : tableOf ds = .ok t) (opc : Byte) :
    ds[opc.toNat]? = some (t.descriptor opc) := by
  unfold tableOf at h
  split at h
  · next hlength =>
    obtain rfl := Except.ok.inj h
    exact List.getElem?_eq_getElem (hlength ▸ opc.isLt)
  · cases h

/-- Settles O10: the block is the one of reset, whose values are those of `resetValuesOfTheBlock`. -/
theorem constructionNeeds256Descriptors : Obligations.ConstructionNeeds256Descriptors := by
  intro s ds rest hinputs
  rw [step_of_construct hinputs]
  obtain ⟨hlanes, -⟩ := resetValuesOfTheBlock
  obtain ⟨table, hlength, htable, hnew⟩ | ⟨hlength, hfault⟩ := constructState_cases { s with inputs := rest } ds
  · exact ⟨fun _ => ⟨_, hnew, hlanes, rfl, rfl, rfl, rfl, getElem?_of_tableOf htable, rfl, rfl⟩,
      fun hne => absurd hlength hne⟩
  · exact ⟨fun h => absurd h hlength, fun _ => hfault⟩

end Sys2Proof.Machine
end

section
/-! SUPPORT. STEP from its word to its commit (44_dispatcher.md R150 to R160). -/

namespace Sys2Proof.Machine

open Sys2Proof Sys2Proof.Spec

/-! ## The word and the fetch -/

/-- Settles O34: with no operand, the word's code alone is assembled. -/
theorem stepWordIsExact : Obligations.StepWordIsExact := by
  refine wordRule_of_assemble 0xD rfl fun w hop => ?_
  simp [assemble, hop, Except.toOption]

/-- A step whose fetch fails is answered with the collaborator's payload, whatever the table holds (R151). -/
theorem runStep_of_fetch_error {s : State} {e : MemErr} (h : memRead s.mem s.core.pc = .error e) :
    runStep s = s.raise (.invalidMemoryAccess e) := by
  rw [runStep, h]

/-- Settles O35: the payload is raised from the state before the step. -/
theorem failedFetchIsReported : Obligations.FailedFetchIsReported :=
  fun _ _ hfetch => congrArg Host.Outcome.next (runStep_of_fetch_error hfetch)

/-- Settles O42: a fetch outside MMIO_SET leaves the memory as it was. -/
theorem stepIsTheFetchedOpcode : Obligations.StepIsTheFetchedOpcode := by
  intro s opc m hmmio hfetch
  obtain rfl : m = s.mem := memRead_mem_eq hmmio hfetch
  exact exec_step_of_fetch hfetch

/-! ## The commit -/

/-- Settles O39: the commit of a memory error raises it from the state before the step. -/
theorem behaviourMemoryErrorIsUndone : Obligations.BehaviourMemoryErrorIsUndone :=
  fun _ _ _ _ _ hfetch hkind hrun => exec_step_of_implemented hfetch hkind hrun

/-- A fetched opcode with an implemented descriptor is the commit of its behaviour's result (R152, R154). -/
theorem exec_opcode_of_implemented {s : State} {opc : Byte} {b : Behaviour} {res : BehResult}
    (hkind : (s.table.descriptor opc).kind = .implemented b)
    (hrun : runBehaviour s.clockWidth b (s.table.descriptor opc).operands s.core s.mem = res) :
    exec (.opcode opc) s = .next (commit s opc res) := by
  have hopcode : runOpcode s opc s.mem = commit s opc res := by rw [runOpcode, hkind, ← hrun]
  exact congrArg Host.Outcome.next hopcode

/-- A result that keeps the clock contract and passes no maximum is committed, with its cost as the response (R157). -/
theorem commit_of_not_passes {s : State} {c : CoreState} {dm dt : Nat} (opc : Byte) (m : Mem)
    (hm : c.clk.m = s.core.clk.m + dm) (ht : c.clk.t = s.core.clk.t + dt) (hpm : ¬Passes s.clockWidth c.clk.m)
    (hpt : ¬Passes s.clockWidth c.clk.t) :
    commit s opc (.done c m dm dt) = State.respond { s with core := c, mem := m } (.ok (.cost dm dt)) := by
  have hkeeps : keepsContract s.core.clk c.clk dm dt = true := (keepsContract_iff ..).2 ⟨hm, ht⟩
  have hfits : c.clk.fits s.clockWidth = true := by
    rw [not_passes_iff] at hpm hpt
    rw [Clock.fits, hpm, hpt, Bool.and_self]
  simp [commit, hkeeps, hfits]

/-- Settles O37: the step is the commit of the behaviour's result, on the memory as the fetch left it. -/
theorem stepCommitsTheBehaviour : Obligations.StepCommitsTheBehaviour := by
  intro s opc fetched m b c dm dt hfetch hkind hrun hm ht hpm hpt
  exact (exec_step_of_implemented hfetch hkind hrun).trans
    (congrArg Host.Outcome.next (commit_of_not_passes opc m hm ht hpm hpt))

/-- Settles O38: the opcode is the commit of its behaviour's result, on the memory as it stands. -/
theorem opcodeCommitsTheBehaviour : Obligations.OpcodeCommitsTheBehaviour := by
  intro s opc m b c dm dt hkind hrun hm ht hpm hpt
  exact (exec_opcode_of_implemented hkind hrun).trans
    (congrArg Host.Outcome.next (commit_of_not_passes opc m hm ht hpm hpt))

/-! ## A failed step -/

/-- A step that records a failure changes nothing else (60_exceptions.md R181). -/
theorem runStep_of_failure {s : State} {r : Response} (hr : (runStep s).responses = s.responses ++ [r])
    (hfailure : Failure r) : runStep s = s.raise r := by
  obtain ⟨f, -, h⟩ | ⟨opc, fetched, b, c, mem, dm, dt, -, -, -, -, -, -, h⟩ := runStep_cases s <;> rw [h] at hr
  · obtain rfl : f = r := List.singleton_inj.1 (List.append_cancel_left hr)
    exact h
  · exact absurd (List.singleton_inj.1 (List.append_cancel_left hr)).symm (hfailure (.cost dm dt))

/-- Settles O43: the failed step left all but the response list, which plays no part in a step (`runStep_responses`). -/
theorem failedStepFailsAgain : Obligations.FailedStepFailsAgain := by
  intro s t r hexec hr hfailure
  obtain rfl : runStep s = t := Host.Outcome.next.inj hexec
  have hfirst : runStep s = s.raise r := runStep_of_failure hr hfailure
  obtain ⟨r', hresponses⟩ := runStep_responses s
  obtain rfl : r' = r := by
    have hsame : (runStep s).responses = s.responses ++ [r'] := congrArg State.responses (hresponses s.responses)
    exact List.singleton_inj.1 (List.append_cancel_left (hsame.symm.trans hr))
  have hagain : runStep (s.raise r') = (s.raise r').raise r' := by
    rw [State.raise, State.respond, hresponses, hfirst]
    rfl
  rw [hfirst]
  exact congrArg Host.Outcome.next hagain

/-! ## A step over F_NOP -/

/-- No value passes the unbounded width (43_clock.md R142). -/
theorem not_passes_none (n : Nat) : ¬Passes none n := nofun

/-- With the clock unbounded the scripted F_NOP moves PC by 1 and the counters by 1 and 4, and returns that cost. -/
theorem runScript_nopScript_unbounded (operands : Meta) (env : List Nat) (c : CoreState) (mem : Mem) :
    runScript none operands nopScript env c mem =
      .done { c with pc := c.pc + 1, clk := ⟨c.clk.m + 1, c.clk.t + 4⟩ } mem 1 4 := by
  rw [nopScript, runScript_incpc_one]
  calc
    _ = runScript none operands (.command (.lit 0xC20004) (.finish (.lit 1) (.lit 4))) (0 :: 0 :: 0 :: 0 :: env)
          { c with pc := c.pc + 1, clk := ⟨c.clk.m + 1, c.clk.t⟩ } mem :=
      runScript_clkadd_of_not_passes (sel := .m) (amount := 1) (w := 0xC00001) (by decide) (not_passes_none _) ..
    _ = runScript none operands (.finish (.lit 1) (.lit 4)) (0 :: 0 :: 0 :: 0 :: 0 :: 0 :: env)
          { c with pc := c.pc + 1, clk := ⟨c.clk.m + 1, c.clk.t + 4⟩ } mem :=
      runScript_clkadd_of_not_passes (sel := .t) (amount := 4) (w := 0xC20004) (by decide) (not_passes_none _) ..
    _ = _ := rfl

/-- Settles O44: the script's results keep the contract, and the fetch leaves the memory as it was. -/
theorem stepOverScriptedNop : Obligations.StepOverScriptedNop := by
  intro s opc m hwidth hmmio hfetch hkind
  obtain rfl : m = s.mem := memRead_mem_eq hmmio hfetch
  have hpasses (n : Nat) : ¬Passes s.clockWidth n := hwidth ▸ not_passes_none n
  have hrun := runScript_nopScript_unbounded (s.table.descriptor opc).operands [] s.core s.mem
  rw [← hwidth, add_eq_ofNat_mod] at hrun
  exact stepCommitsTheBehaviour s opc s.mem s.mem (.script nopScript) _ 1 4 hfetch hkind hrun rfl rfl (hpasses _)
    (hpasses _)

end Sys2Proof.Machine
end

section
/-! SUPPORT. What the block does without an effect: it idles, and a failure leaves all but the response recorded
(60_exceptions.md R181 to R185, R199). -/

namespace Sys2Proof.Machine

open Sys2Proof Sys2Proof.Spec

/-! ## Idling -/

/-- Settles O8. -/
theorem idleStepKeepsAllState : Obligations.IdleStepKeepsAllState := fun _ hinputs => step_of_nil hinputs

/-! ## A placeholder, and a broken clock contract -/

/-- An opcode whose descriptor is a placeholder is answered UnimplementedOpcode, whatever the fetch left in memory
(R182). -/
theorem runOpcode_of_placeholder {s : State} {opc : Byte} (hkind : (s.table.descriptor opc).kind = .placeholder)
    (fetched : Mem) : runOpcode s opc fetched = s.raise (.unimplementedOpcode opc s.core.pc) := by
  rw [runOpcode, hkind]

/-- Settles O36: after the fetch STEP is the opcode on the memory the fetch left. -/
theorem placeholderIsUnimplemented : Obligations.PlaceholderIsUnimplemented := by
  intro s opc hkind
  refine ⟨congrArg Host.Outcome.next (runOpcode_of_placeholder hkind s.mem), fun m hfetch => ?_⟩
  exact congrArg Host.Outcome.next ((runStep_of_fetch hfetch).trans (runOpcode_of_placeholder hkind m))

/-- A result whose clock is not the old clock plus its cost is ContractViolation, before the maximum is looked at
(R185, R189). -/
theorem commit_of_broken_contract {s : State} {c : CoreState} {dm dt : Nat} (opc : Byte) (m : Mem)
    (hclk : c.clk ≠ ⟨s.core.clk.m + dm, s.core.clk.t + dt⟩) :
    commit s opc (.done c m dm dt) = s.raise (.contractViolation opc s.core.pc) := by
  have hbroken : keepsContract s.core.clk c.clk dm dt = false := decide_eq_false hclk
  simp [commit, hbroken]

/-- Settles O40: the step is the commit of the behaviour's result. -/
theorem brokenClockContractFails : Obligations.BrokenClockContractFails := by
  intro s opc fetched m b c dm dt hfetch hkind hrun hclk
  exact (exec_step_of_implemented hfetch hkind hrun).trans
    (congrArg Host.Outcome.next (commit_of_broken_contract opc m hclk))

/-! ## Any failure -/

/-- An instruction that records a failure changes nothing else: an accessor's failure is an overflow, which changes
nothing, STEP and the opcode raise theirs, and a committed behaviour is answered ok. -/
theorem eq_raise_of_exec {i : Instr} {s t : State} {r : Response} (hexec : exec i s = .next t)
    (hr : t.responses = s.responses ++ [r]) (hfailure : Failure r) : t = s.raise r := by
  obtain ⟨reply, hreply, h⟩ | ⟨-, f, -, h⟩ | ⟨-, opc, fetched, b, c, mem, dm, dt, -, -, -, -, -, -, h⟩ :=
    exec_cases i s <;> obtain rfl := Host.Outcome.next.inj (hexec.symm.trans h)
  · obtain rfl : reply.response = r := by simpa using hr
    obtain ⟨v, hok⟩ | ⟨hoverflow, -⟩ := accessorReply?_cases hreply
    · exact absurd hok (hfailure v)
    · rw [hoverflow]
      rfl
  · obtain rfl : f = r := by simpa using hr
    rfl
  · obtain rfl : .ok (.cost dm dt) = r := by simpa using hr
    exact absurd rfl (hfailure (.cost dm dt))

/-- A command word the host issues that is answered a failure changes nothing else, legal or not. -/
theorem eq_raise_of_runCommand {w : CommandWord} {s t : State} {r : Response} (hrun : runCommand w s = .next t)
    (hr : t.responses = s.responses ++ [r]) (hfailure : Failure r) : t = s.raise r := by
  obtain ⟨-, -, h⟩ | ⟨i, -, h⟩ := runCommand_cases w s
  · obtain rfl := Host.Outcome.next.inj (hrun.symm.trans h)
    obtain rfl : .illegalCommand w = r := by simpa using hr
    rfl
  · exact eq_raise_of_exec (h.symm.trans hrun) hr hfailure

/-- Settles O53: the word is taken off the queue and then run. -/
theorem failureChangesNothing : Obligations.FailureChangesNothing := by
  intro s t r hr hfailure
  refine ⟨fun i hexec => eq_raise_of_exec hexec hr hfailure, fun w rest hstep => ?_⟩
  have hrun : runCommand w { s with inputs := rest } = .next t :=
    (step_of_command (s := { s with inputs := .command w :: rest }) rfl).symm.trans hstep
  exact eq_raise_of_runCommand hrun hr hfailure

end Sys2Proof.Machine
end

section
/-! SUPPORT. What a script receives (70_reset_and_hazards.md R205): an access is made on the memory, and a command on
the block, as the accesses and commands before it left them. -/

namespace Sys2Proof.Machine

open Sys2Proof Sys2Proof.Spec

/-! ## Memory -/

/-- A script goes on after a read that succeeds, with the byte received. -/
theorem runScript_read_of_ok {mem mem' : Mem} {a : Word} {v : Byte} (h : memRead mem a = .ok (v, mem'))
    (width : Option Nat) (operands : Meta) (next : Script) (env : List Nat) (c : CoreState) :
    runScript width operands (.read (.lit a.toNat) next) env c mem =
      runScript width operands next (v.toNat :: env) c mem' := by
  simp [runScript, evalExpr, h]

/-- A script goes on after a write that succeeds, and receives nothing. -/
theorem runScript_write_of_ok {mem mem' : Mem} {a : Word} {v : Byte} (h : memWrite mem a v = .ok mem')
    (width : Option Nat) (operands : Meta) (next : Script) (env : List Nat) (c : CoreState) :
    runScript width operands (.write (.lit a.toNat) (.lit v.toNat) next) env c mem =
      runScript width operands next env c mem' := by
  simp [runScript, evalExpr, h]

/-! ## A lane -/

/-- WR8 in a script writes its lane, and the script receives status code 0 and no value
(42_register_file_accessors.md R122). -/
theorem runScript_wr8 {id : R8Id} {v : Byte} {w : CommandWord} (hword : commandWord? (.wr8 id v) = some w)
    (width : Option Nat) (operands : Meta) (next : Script) (env : List Nat) (c : CoreState) (mem : Mem) :
    runScript width operands (.command (.lit w.toNat) next) env c mem =
      runScript width operands next (0 :: 0 :: env) (withLane id v c) mem := by
  rw [withLane_eq_writeR8]
  exact runScript_command_of_ok (issueWord_of_accessorReply? (decodeCommand_of_commandWord? hword) rfl) ..

/-- RD8 in a script changes nothing, and the script receives status code 0 and the lane
(42_register_file_accessors.md R121). -/
theorem runScript_rd8 {id : R8Id} {w : CommandWord} (hword : commandWord? (.rd8 id) = some w) (width : Option Nat)
    (operands : Meta) (next : Script) (env : List Nat) (c : CoreState) (mem : Mem) :
    runScript width operands (.command (.lit w.toNat) next) env c mem =
      runScript width operands next ((lane id c).toNat :: 0 :: env) c mem := by
  rw [lane_eq_readR8]
  exact runScript_command_of_ok (issueWord_of_accessorReply? (decodeCommand_of_commandWord? hword) rfl) ..

/-- A lane holds the byte last written to it. -/
theorem lane_withLane (id : R8Id) (v : Byte) (c : CoreState) : lane id (withLane id v c) = v := by
  rw [lane_eq_readR8, withLane_eq_writeR8, CoreState.readR8_writeR8]

/-- Settles O48: the read finds the byte the write stored (`memRead_of_memWrite`, `lane_withLane`). -/
theorem behaviourReadsSeeItsWrites : Obligations.BehaviourReadsSeeItsWrites := by
  intro width operands next env c mem mem' a v
  refine ⟨fun hmmio hwrite => ?_, fun id wr rd hwr hrd => ?_⟩
  · have hread : memRead mem' a = .ok (v, mem') := memRead_of_memWrite hmmio hwrite
    rw [runScript_write_of_ok hwrite, runScript_read_of_ok hread]
  · rw [runScript_wr8 hwr, runScript_rd8 hrd, lane_withLane]

end Sys2Proof.Machine
end
